-- ==== Sys2Proof/Word.lean ====
section
/-! DEFINITION. The word types of the block: a command or response word is 32 bits (R43, R44), an FB cell is one
byte (R17), and an FB address has 10 bits (R30). Bit 0 is the least significant bit (R7), and every value is an
unsigned integer (R8), so plain bit vectors serve. -/

namespace Sys2Proof

/-- A 32-bit command or response word (R43, R44). -/
abbrev Word := BitVec 32

/-- An 8-bit value: one FB cell, a vertical strip of 8 pixels (R17, R31). -/
abbrev Byte := BitVec 8

/-- A 10-bit FB address, 0..1023; every one of them is populated (R30). -/
abbrev FbAddr := BitVec 10

/-- A 7-bit pixel column, 0 = leftmost .. 127 (R5, R10). -/
abbrev Column := BitVec 7

/-- A 6-bit pixel row, 0 = topmost .. 63 (R5, R10). -/
abbrev PixelRow := BitVec 6

/-- A 3-bit page number 0..7; also the number of a row inside its page (R5, R12). -/
abbrev Page := BitVec 3

end Sys2Proof
end

