-- ==== Sys2Proof/Syntax.lean ====
section
/-! DEFINITION. The commands of the block (R47, R49), one constructor for each row of spec/opcode_table.json, each
with its fields at their exact widths, so that no field value is out of range (R48); the two reasons a word is no
command (R51, R79); and the statements of the assembler (R53, R54), whose operands are plain numbers, because an
assembler must be able to see an operand that is out of range in order to reject it (R56). -/

namespace Sys2Proof

/-- The two bit orders of CFG.BIT_ORDER (R18, R20): which bit of an FB byte is the top row of its page. -/
inductive BitOrder where
  /-- 0, the reset value: bit 0 is the topmost row (R63). -/
  | lsbFirst
  /-- 1: bit 7 is the topmost row (R63). -/
  | msbFirst
  deriving DecidableEq, Repr

/-- The commands (R49). -/
inductive Instr where
  /-- NOP, format N (R73). -/
  | nop
  /-- LOADSTART, format N (R58). -/
  | loadstart
  /-- LOADBYTE data, format D (R59). -/
  | loadbyte (data : Byte)
  /-- WRBYTE addr, data, format AD (R60). -/
  | wrbyte (addr : FbAddr) (data : Byte)
  /-- RDBYTE addr, format A (R61). -/
  | rdbyte (addr : FbAddr)
  /-- RDPIX x, y, format XY (R67). -/
  | rdpix (x : Column) (y : PixelRow)
  /-- RDSTRIP x, page, format XP (R68). -/
  | rdstrip (x : Column) (page : Page)
  /-- RDROW8 g, y, format GY (R69). -/
  | rdrow8 (g : BitVec 4) (y : PixelRow)
  /-- WRCFG order, inv, format C (R74). -/
  | wrcfg (order : BitOrder) (inv : Bool)
  /-- RDCFG, format N (R75). -/
  | rdcfg
  /-- RDSTAT, format N (R76). -/
  | rdstat
  /-- CLRSTAT, format N (R77). -/
  | clrstat
  deriving DecidableEq, Repr

/-- The mnemonic of a command, as spec/opcode_table.json spells it. -/
def Instr.mnemonic : Instr → String
  | .nop => "NOP"
  | .loadstart => "LOADSTART"
  | .loadbyte _ => "LOADBYTE"
  | .wrbyte _ _ => "WRBYTE"
  | .rdbyte _ => "RDBYTE"
  | .rdpix _ _ => "RDPIX"
  | .rdstrip _ _ => "RDSTRIP"
  | .rdrow8 _ _ => "RDROW8"
  | .wrcfg _ _ => "WRCFG"
  | .rdcfg => "RDCFG"
  | .rdstat => "RDSTAT"
  | .clrstat => "CLRSTAT"

/-- Why a word is no command: the two cases of R79, which are those of R51. Either one raises IllegalCommand. -/
inductive DecodeError where
  /-- R79 (a): `cmd[31:28]` is in 0xC..0xF. -/
  | reservedOpcode
  /-- R79 (b): `cmd[31:28]` is in 0x0..0xB and some bit outside that row's fields is 1. -/
  | reservedBitSet
  deriving DecidableEq, Repr

/-- A statement of the assembler: a command with its operands as the source line has them, `.word v`, or a
pseudo-instruction (R53, R54). An `order` operand is 0 for `LSB` and 1 for `MSB`. -/
inductive Stmt where
  | nop
  | loadstart
  | loadbyte (data : Nat)
  | wrbyte (addr data : Nat)
  | rdbyte (addr : Nat)
  | rdpix (x y : Nat)
  | rdstrip (x page : Nat)
  | rdrow8 (g y : Nat)
  | wrcfg (order inv : Nat)
  | rdcfg
  | rdstat
  | clrstat
  /-- `.word v`: any 32-bit word, illegal ones included. -/
  | word (v : Nat)
  /-- `CLEAR`, for `LOADSTART`. -/
  | clear
  /-- `LOADBUF b0, b1, …`: `LOADSTART`, then a `LOADBYTE` for each byte. -/
  | loadbuf (bytes : List Nat)
  /-- `WRPC page, x, data`: `WRBYTE page*128+x, data`. -/
  | wrpc (page x data : Nat)
  /-- `RDPC page, x`: `RDBYTE page*128+x`. -/
  | rdpc (page x : Nat)
  /-- `SETORDER order`: `WRCFG order, 0`. -/
  | setorder (order : Nat)
  deriving DecidableEq, Repr

/-- Why the assembler emits no word for a source line. -/
inductive AsmError where
  /-- An operand lies outside its field's range (R56). -/
  | operandOutOfRange
  /-- The first word of the line is no mnemonic of R53 or R54. -/
  | unknownMnemonic
  /-- An operand is neither a number of R53 nor, where an order stands, `LSB` or `MSB`. -/
  | badOperand
  /-- The mnemonic does not take this many operands. -/
  | wrongOperandCount
  deriving DecidableEq, Repr

end Sys2Proof
end

