-- ==== Sys2Proof/Decode.lean ====
section
/-! DEFINITION. From a command word to a command and back. `decode` follows the formats of R47 and the dispatch of
R52: the opcode is `cmd[31:28]`, every reserved bit of the format must be 0, and every other word is rejected under the
name of R79's case. `encode` follows the words of R53. `opcodeTable` holds the match and mask pairs of R49, and
`isLegal` is R50's legality over them; that the two accounts agree is a statement, not a definition. Decoding reads the
word alone (R50, R55). -/

namespace Sys2Proof

/-- The bit that stands for an order in CFG and in `WRCFG`: 0 = LSB_FIRST, 1 = MSB_FIRST (R18, R74). -/
def BitOrder.bit : BitOrder → Bool
  | .lsbFirst => false
  | .msbFirst => true

/-- The order a bit stands for (R18). -/
def BitOrder.ofBit (b : Bool) : BitOrder := if b then .msbFirst else .lsbFirst

/-- A row of the opcode map of R49. -/
structure OpcodeRow where
  mnemonic : String
  pattern : Word
  mask : Word
  deriving DecidableEq, Repr

/-- R50: a row matches a word iff `(cmd AND mask) = match`. -/
def OpcodeRow.covers (r : OpcodeRow) (w : Word) : Bool := w &&& r.mask == r.pattern

/-- The opcode map of R49. -/
def opcodeTable : List OpcodeRow :=
  [⟨"NOP", 0x00000000, 0xFFFFFFFF⟩, ⟨"LOADSTART", 0x10000000, 0xFFFFFFFF⟩, ⟨"LOADBYTE", 0x20000000, 0xFFFFFF00⟩,
   ⟨"WRBYTE", 0x30000000, 0xFC00FF00⟩, ⟨"RDBYTE", 0x40000000, 0xFC00FFFF⟩, ⟨"RDPIX", 0x50000000, 0xFFFFC080⟩] ++
  [⟨"RDSTRIP", 0x60000000, 0xFFFFF880⟩, ⟨"RDROW8", 0x70000000, 0xFFFFC0F0⟩, ⟨"WRCFG", 0x80000000, 0xFFFFFFFC⟩,
   ⟨"RDCFG", 0x90000000, 0xFFFFFFFF⟩, ⟨"RDSTAT", 0xA0000000, 0xFFFFFFFF⟩, ⟨"CLRSTAT", 0xB0000000, 0xFFFFFFFF⟩]

/-- R50: a word is legal iff some row of R49 matches it. -/
def isLegal (w : Word) : Bool := opcodeTable.any fun r => r.covers w

/-- `op = cmd[31:28]` (R43). -/
def opcodeOf (w : Word) : BitVec 4 := w.extractLsb' 28 4

/-- Format N (R47): bits 27:0 reserved. -/
def reservedClearN (w : Word) : Bool := w.extractLsb' 0 28 == 0

/-- Format D (R47): bits 27:8 reserved. -/
def reservedClearD (w : Word) : Bool := w.extractLsb' 8 20 == 0

/-- Format AD (R47): bits 27:26 and 15:8 reserved. -/
def reservedClearAD (w : Word) : Bool := w.extractLsb' 26 2 == 0 && w.extractLsb' 8 8 == 0

/-- Format A (R47): bits 27:26 and 15:0 reserved. -/
def reservedClearA (w : Word) : Bool := w.extractLsb' 26 2 == 0 && w.extractLsb' 0 16 == 0

/-- Format XY (R47): bits 27:14 and 7 reserved. -/
def reservedClearXY (w : Word) : Bool := w.extractLsb' 14 14 == 0 && w.extractLsb' 7 1 == 0

/-- Format XP (R47): bits 27:11 and 7 reserved. -/
def reservedClearXP (w : Word) : Bool := w.extractLsb' 11 17 == 0 && w.extractLsb' 7 1 == 0

/-- Format GY (R47): bits 27:14 and 7:4 reserved. -/
def reservedClearGY (w : Word) : Bool := w.extractLsb' 14 14 == 0 && w.extractLsb' 4 4 == 0

/-- Format C (R47): bits 27:2 reserved. -/
def reservedClearC (w : Word) : Bool := w.extractLsb' 2 26 == 0

/-- `data` = cmd[7:0] (R47). -/
def dataField (w : Word) : Byte := w.extractLsb' 0 8

/-- `addr` = cmd[25:16] (R47). -/
def addrField (w : Word) : FbAddr := w.extractLsb' 16 10

/-- `x` = cmd[6:0] (R47). -/
def xField (w : Word) : Column := w.extractLsb' 0 7

/-- `y` = cmd[13:8] (R47). -/
def yField (w : Word) : PixelRow := w.extractLsb' 8 6

/-- `page` = cmd[10:8] (R47). -/
def pageField (w : Word) : Page := w.extractLsb' 8 3

/-- `g` = cmd[3:0] (R47). -/
def groupField (w : Word) : BitVec 4 := w.extractLsb' 0 4

/-- `order` = cmd[1] (R47). -/
def orderField (w : Word) : BitOrder := .ofBit (w.getLsbD 1)

/-- `inv` = cmd[0] (R47). -/
def invField (w : Word) : Bool := w.getLsbD 0

/-- The command of a word whose reserved bits are clear; R79 (b) where one is set. -/
def checkedInstr (reservedClear : Bool) (i : Instr) : Except DecodeError Instr :=
  if reservedClear then .ok i else .error .reservedBitSet

/-- The decoder (R47, R50, R52, R79), total on every word. -/
def decode (w : Word) : Except DecodeError Instr :=
  match (opcodeOf w).toNat with
  | 0x0 => checkedInstr (reservedClearN w) .nop
  | 0x1 => checkedInstr (reservedClearN w) .loadstart
  | 0x2 => checkedInstr (reservedClearD w) (.loadbyte (dataField w))
  | 0x3 => checkedInstr (reservedClearAD w) (.wrbyte (addrField w) (dataField w))
  | 0x4 => checkedInstr (reservedClearA w) (.rdbyte (addrField w))
  | 0x5 => checkedInstr (reservedClearXY w) (.rdpix (xField w) (yField w))
  | 0x6 => checkedInstr (reservedClearXP w) (.rdstrip (xField w) (pageField w))
  | 0x7 => checkedInstr (reservedClearGY w) (.rdrow8 (groupField w) (yField w))
  | 0x8 => checkedInstr (reservedClearC w) (.wrcfg (orderField w) (invField w))
  | 0x9 => checkedInstr (reservedClearN w) .rdcfg
  | 0xA => checkedInstr (reservedClearN w) .rdstat
  | 0xB => checkedInstr (reservedClearN w) .clrstat
  | _ => .error .reservedOpcode

/-- A field in its place: `v` widened with zeros and moved up by `lo` bits (R8, R53). -/
def placed {n : Nat} (v : BitVec n) (lo : Nat) : Word := v.setWidth 32 <<< lo

/-- The encoder: the word of R53 for each command. -/
def encode : Instr → Word
  | .nop => 0x00000000
  | .loadstart => 0x10000000
  | .loadbyte d => 0x20000000 ||| placed d 0
  | .wrbyte a d => 0x30000000 ||| placed a 16 ||| placed d 0
  | .rdbyte a => 0x40000000 ||| placed a 16
  | .rdpix x y => 0x50000000 ||| placed y 8 ||| placed x 0
  | .rdstrip x p => 0x60000000 ||| placed p 8 ||| placed x 0
  | .rdrow8 g y => 0x70000000 ||| placed y 8 ||| placed g 0
  | .wrcfg o i => 0x80000000 ||| placed (BitVec.ofBool o.bit) 1 ||| placed (BitVec.ofBool i) 0
  | .rdcfg => 0x90000000
  | .rdstat => 0xA0000000
  | .clrstat => 0xB0000000

/-- The command word whose bits the host numbers as spec/opcode_table.json does: a command is one 32-bit word carried
in parallel, bit `i` on wire `i` (R35, R55), so there is no byte order, and every bit above `nbits` is 0. -/
def tableWord (nbits w : Nat) : Word := BitVec.ofNat 32 (w % 2 ^ nbits)

/-- The command the decoder reads from a word of the opcode table; none where it rejects it. -/
def decodeTableWord (nbits w : Nat) : Option Instr :=
  match decode (tableWord nbits w) with
  | .ok i => some i
  | .error _ => none

end Sys2Proof
end

