-- ==== Sys2Proof/Config.lean ====
section
/-! DEFINITION. The fixed sizes of R5, which are no parameters, and the one open parameter of R6. -/

namespace Sys2Proof.Config

/-- `WIDTH` of R5: pixel columns. -/
def width : Nat := 128

/-- `HEIGHT` of R5: pixel rows. -/
def height : Nat := 64

/-- `PAGES` of R5. -/
def pages : Nat := 8

/-- `PAGE_ROWS` of R5: rows in one page. -/
def pageRows : Nat := 8

/-- `FB_BYTES` of R5: the length of FB, and the value of WPTR at which FB is full (R21, R25). -/
def fbBytes : Nat := 1024

/-- `CMD_LATENCY` of R6, the one open parameter: cycles from accepting a command to presenting its response, and
cycles for which `cmd_ready` may stay low. The spec says only that it is finite, so it has no body: nothing in Lean
can evaluate it. No step reads it (R100), since the block's timing at each edge is data of the edge
(`Machine.Edge`); only the progress statement and its witnesses name it. Log entry 3. -/
opaque cmdLatency : Nat

end Sys2Proof.Config
end

