-- ==== Sys2Proof/Machine/State.lean ====
section
/-! DEFINITION. The state of the block (R15: exactly FB, CFG.INVERT, CFG.BIT_ORDER, WPTR, STATUS.ILL, STATUS.TRUNC) and,
beside it, the model's record of the command port (R45, R91): the clock edges to come, the responses not yet delivered,
whether one of them is being offered, and the responses the host has taken. A step of the model is one clock edge. -/

namespace Sys2Proof.Machine

/-- One rising edge of `clk`, as the port of R45 sees it. The inputs `rst`, `cmdValid`, `cmdData` and `rspReady` are the
host's. `willAccept` and `willPresent` are the block's own timing, which the spec leaves open (R6, R97, U1): outside
reset the block is ready at this edge to accept a command, and raises `rsp_valid` at it for a waiting response. They are
data of the edge, so a list of edges ranges over every latency and every stall. Log entry 3. The output signals that
come of them are `Edge.cmdReady`, `State.rspValid` and `State.rspData` (Port.lean). -/
structure Edge where
  rst : Bool
  cmdValid : Bool
  cmdData : Word
  rspReady : Bool
  willAccept : Bool
  willPresent : Bool
  deriving DecidableEq, Repr

/-- FB as data (R17): the cells that do not hold 0x00, as (address, byte) pairs. An unlisted address reads 0x00, the
reset contents of every cell (R26). Canonical form: addresses strictly rising and below 1024, no byte 0x00
(`Memory.wf`, Ops.lean). -/
abbrev Memory := List Host.Cell

/-- The state. -/
structure State where
  /-- FB, 1024 cells of 8 bits (R17). -/
  fb : Memory
  /-- CFG.INVERT (R19). -/
  invert : Bool
  /-- CFG.BIT_ORDER (R20). -/
  bitOrder : BitOrder
  /-- WPTR, the 11-bit load pointer (R21). -/
  wptr : BitVec 11
  /-- STATUS.ILL (R23). -/
  ill : Bool
  /-- STATUS.TRUNC (R24). -/
  trunc : Bool
  /-- The port: the clock edges still to come, the next one first (the host's input; log entry 1). -/
  edges : List Edge
  /-- The port: responses of accepted commands that are not yet delivered, oldest first (R96). -/
  pending : List Word
  /-- The port: `rsp_valid` has been raised for the oldest pending response and must stay raised (R45). -/
  offered : Bool
  /-- The host's record of the responses delivered to it, oldest first (R45, R96). -/
  delivered : List Word
  deriving DecidableEq, Repr

/-- Why a step could stop the machine. There is no constructor: the block's one exception, IllegalCommand, is a next
state (R80), "The step always returns" (R52), and the source's length assertion cannot fire because FB has 1024 cells by
construction, so "No fault is defined for it" (R81, D25, U5). Safe: no claim rests on a fault. -/
inductive Fault where
  deriving DecidableEq, Repr

/-- Why a step could have no meaning. -/
inductive Refusal where
  /-- Raised by the arm of `exec` of a command that has no meaning yet; every command has one, so no arm raises it.
  Safe: the machine would stop where the hardware goes on. -/
  | notModelled (mnemonic : String)
  deriving DecidableEq, Repr

/-- The state right after reset (R26, R92): every cell of FB 0x00, INVERT 0, BIT_ORDER LSB_FIRST, WPTR 0, ILL 0, TRUNC 0.
At the port nothing is in flight, and the host has offered nothing yet (log entries 1 and 2). -/
def State.reset : State where
  fb := []
  invert := false
  bitOrder := .lsbFirst
  wptr := 0
  ill := false
  trunc := false
  edges := []
  pending := []
  offered := false
  delivered := []

end Sys2Proof.Machine
end

