-- ==== Sys2Proof/Machine/Operands.lean ====
section
/-! DEFINITION. The operand forms and the bit arithmetic of the block: pixel coordinates (R10), the page layout (R31,
R32), the bit index (R63), and the packing of 8 pixels into a byte (R68, R69). -/

namespace Sys2Proof.Machine

/-- `zext_32` (R8). -/
def zext32 {n : Nat} (v : BitVec n) : Word := v.setWidth 32

/-- `page(y) = y[5:3]` (R10). -/
def pageOfRow (y : PixelRow) : Page := y.extractLsb' 3 3

/-- `row_in_page(y) = y[2:0]` (R10). -/
def rowInPage (y : PixelRow) : BitVec 3 := y.extractLsb' 0 3

/-- The row `page*8 + r` (R68). -/
def rowOfPage (page : Page) (r : BitVec 3) : PixelRow := page.setWidth 6 <<< 3 ||| r.setWidth 6

/-- The column `8*g + k` (R69). -/
def columnOfGroup (g : BitVec 4) (k : BitVec 3) : Column := g.setWidth 7 <<< 3 ||| k.setWidth 7

/-- The FB address of the strip at column `x` of a page: `a = {p[2:0], x[6:0]}` (R31). -/
def stripAddr (page : Page) (x : Column) : FbAddr := page.setWidth 10 <<< 7 ||| x.setWidth 10

/-- The page of an FB address, `a[9:7]` (R32). -/
def pageOfAddr (a : FbAddr) : Page := a.extractLsb' 7 3

/-- The column of an FB address, `a[6:0]` (R32). -/
def columnOfAddr (a : FbAddr) : Column := a.extractLsb' 0 7

/-- `BitIndex(o, r)` (R63): the bit of a strip that is row `r` of its page. -/
def bitIndex (o : BitOrder) (r : BitVec 3) : BitVec 3 :=
  match o with
  | .lsbFirst => r
  | .msbFirst => 7 - r

/-- `v[i]` (R7), for a bit of a byte. -/
def byteBit (v : Byte) (i : BitVec 3) : Bool := v.getLsbD i.toNat

/-- The byte whose bit `i` is `f i`: the packing of RDSTRIP and RDROW8 (R68, R69). -/
def packByte (f : BitVec 3 → Bool) : Byte := BitVec.ofFnLE (n := 8) fun i => f (BitVec.ofFin i)

/-- `bitrev8(v)[i] = v[7-i]` (R8). -/
def bitrev8 (v : Byte) : Byte := packByte fun i => byteBit v (7 - i)

/-- `NOT8(v) = v XOR 0xFF` (R8). -/
def not8 (v : Byte) : Byte := v ^^^ 0xFF

end Sys2Proof.Machine
end

