-- ==== Sys2Proof/Machine/Ops.lean ====
section
/-! DEFINITION. The operations over the state that the commands share: FB as a store of bytes (R9, R17, R36), the
response of a command (R44), the one exception, IllegalCommand (R78 to R80), and reset (R92). The block has no return
from an exception (R84), so none stands here. -/

namespace Sys2Proof.Machine

/-- What an address that the list does not name reads as: 0x00, the reset contents of every cell (R26). -/
def Memory.unlisted : Byte := 0x00

/-- The byte at an address. -/
def Memory.read : Memory → Nat → Byte
  | [], _ => Memory.unlisted
  | (b, u) :: m, a => if a = b then u else Memory.read m a

/-- The list without the cells of an address. -/
def Memory.erase (m : Memory) (a : Nat) : Memory := m.filter fun c => c.1 != a

/-- The list with one more cell, before the first cell of a higher address. -/
def Memory.insert : Memory → Nat → Byte → Memory
  | [], a, v => [(a, v)]
  | (b, u) :: m, a, v => if a < b then (a, v) :: (b, u) :: m else (b, u) :: Memory.insert m a v

/-- `FB[a] <- v` (R9), in canonical form: a byte that an unlisted address reads as is not listed. -/
def Memory.write (m : Memory) (a : Nat) (v : Byte) : Memory :=
  if v = Memory.unlisted then m.erase a else (m.erase a).insert a v

/-- FB with every cell 0x00 (R58, R92). -/
def Memory.cleared : Memory := []

/-- The canonical form from an address on: strictly rising addresses from `lo`, below 1024, no byte that need not be
listed. -/
def Memory.wfFrom : Nat → Memory → Bool
  | _, [] => true
  | lo, (a, v) :: m => decide (lo ≤ a) && decide (a < Config.fbBytes) && v != Memory.unlisted && Memory.wfFrom (a + 1) m

/-- The canonical form of FB. -/
def Memory.wf (m : Memory) : Bool := Memory.wfFrom 0 m

/-- `FB[a]` (R9). -/
def State.fbRead (s : State) (a : FbAddr) : Byte := s.fb.read a.toNat

/-- `FB[a] <- v` (R9); the only width of access is one byte (R36). -/
def State.fbWrite (s : State) (a : FbAddr) (v : Byte) : State := { s with fb := s.fb.write a.toNat v }

/-- `FB[a] <- 0x00` for every `a` (R58), in one step (R37). -/
def State.fbClear (s : State) : State := { s with fb := Memory.cleared }

/-- `rsp <- v` (R9, R44): the one response of the command, behind those of the commands accepted before it (R96). -/
def State.respond (s : State) (v : Word) : State := { s with pending := s.pending ++ [v] }

/-- The response of a command that returns no data (R44). -/
def ackResponse : Word := 0x00000000

/-- The response of an illegal command: ERR = 1, `rsp[30:0] = 0` (R80). -/
def errResponse : Word := 0x80000000

/-- `raise IllegalCommand(cmd)` (R80): ILL is set, the response is ERR, and nothing else changes. -/
def raiseIllegalCommand (s : State) : Host.Outcome State Fault Refusal :=
  .next ({ s with ill := true }.respond errResponse)

/-- Reset at the port (R92, R93, R99): every state element takes its reset value, and a response that is not yet
delivered is lost. What the host has received already, and the edges to come, are the host's and stay. -/
def State.applyReset (s : State) : State := { State.reset with edges := s.edges, delivered := s.delivered }

/-- What follows a command on the same edge, where the command gave a next state. -/
def afterNext (f : State → State) : Host.Outcome State Fault Refusal → Host.Outcome State Fault Refusal
  | .next s => .next (f s)
  | .fault r => .fault r
  | .refused r => .refused r

end Sys2Proof.Machine
end

