-- ==== Sys2Proof/Machine/Flags.lean ====
section
/-! DEFINITION. The flags of the block, ILL, TRUNC and FULL (R22 to R25), and the words in which RDSTAT and RDCFG return
them and the configuration (R18, R22). -/

namespace Sys2Proof.Machine

/-- WPTR < 1024: the next LOADBYTE has a cell to write (R59). -/
def State.hasRoom (s : State) : Bool := decide (s.wptr.toNat < Config.fbBytes)

/-- STATUS.FULL: computed, 1 iff WPTR = 1024 (R25). -/
def State.full (s : State) : Bool := s.wptr == 1024

/-- A flag in its place of a word. -/
def flagAt (b : Bool) (i : Nat) : Word := (BitVec.ofBool b).setWidth 32 <<< i

/-- `STATUS = {5'b0, WPTR[10:0], 13'b0, FULL, TRUNC, ILL}` (R22). -/
def State.statusWord (s : State) : Word :=
  s.wptr.setWidth 32 <<< 16 ||| flagAt s.full 2 ||| flagAt s.trunc 1 ||| flagAt s.ill 0

/-- `CFG = {30'b0, BIT_ORDER, INVERT}` (R18, R75). -/
def State.cfgWord (s : State) : Word := flagAt s.bitOrder.bit 1 ||| flagAt s.invert 0

/-- CLRSTAT's effect on the flags: ILL and TRUNC are cleared, FULL follows WPTR (R77). -/
def State.clearFlags (s : State) : State := { s with ill := false, trunc := false }

end Sys2Proof.Machine
end

