-- ==== Sys2Proof/Machine/Buffer.lean ====
section
/-! DEFINITION. The buffer commands of 40_buffer.md: LOADSTART, LOADBYTE, WRBYTE and RDBYTE (R58 to R61). -/

namespace Sys2Proof.Machine

/-- LOADSTART (R58): every cell of FB 0x00, WPTR 0, TRUNC 0. -/
def execLoadstart (s : State) : Host.Outcome State Fault Refusal :=
  .next ({ s.fbClear with wptr := 0, trunc := false }.respond ackResponse)

/-- `FB[WPTR] <- data; WPTR <- WPTR + 1` (R59). -/
def State.appendByte (s : State) (data : Byte) : State :=
  { s.fbWrite (s.wptr.setWidth 10) data with wptr := s.wptr + 1 }

/-- LOADBYTE (R59): the byte is appended where WPTR < 1024, and dropped with TRUNC set where FB is full. -/
def execLoadbyte (data : Byte) (s : State) : Host.Outcome State Fault Refusal :=
  .next ((if s.hasRoom then s.appendByte data else { s with trunc := true }).respond ackResponse)

/-- WRBYTE (R60): WPTR and TRUNC are unchanged. -/
def execWrbyte (addr : FbAddr) (data : Byte) (s : State) : Host.Outcome State Fault Refusal :=
  .next ((s.fbWrite addr data).respond ackResponse)

/-- RDBYTE (R61): the raw byte, whatever CFG holds. -/
def execRdbyte (addr : FbAddr) (s : State) : Host.Outcome State Fault Refusal :=
  .next (s.respond (zext32 (s.fbRead addr)))

end Sys2Proof.Machine
end

