-- ==== Sys2Proof/Machine/Control.lean ====
section
/-! DEFINITION. The control and status commands of 42_control.md: NOP, WRCFG, RDCFG, RDSTAT and CLRSTAT (R73 to R77). -/

namespace Sys2Proof.Machine

/-- NOP (R73): no state changes; like every command it is answered (R44). -/
def execNop (s : State) : Host.Outcome State Fault Refusal := .next (s.respond ackResponse)

/-- WRCFG (R74): both fields are written every time. -/
def execWrcfg (order : BitOrder) (inv : Bool) (s : State) : Host.Outcome State Fault Refusal :=
  .next ({ s with bitOrder := order, invert := inv }.respond ackResponse)

/-- RDCFG (R75). -/
def execRdcfg (s : State) : Host.Outcome State Fault Refusal := .next (s.respond s.cfgWord)

/-- RDSTAT (R76): reading clears nothing. -/
def execRdstat (s : State) : Host.Outcome State Fault Refusal := .next (s.respond s.statusWord)

/-- CLRSTAT (R77). -/
def execClrstat (s : State) : Host.Outcome State Fault Refusal := .next (s.clearFlags.respond ackResponse)

end Sys2Proof.Machine
end

