-- ==== Sys2Proof/Machine/Pixels.lean ====
section
/-! DEFINITION. The decode commands of 41_decode.md: the decoded pixel D (R64), the displayed pixel P (R65), and RDPIX,
RDSTRIP and RDROW8, which read P (R67 to R69). A pixel is a Bool: true is 1, ON (R66). -/

namespace Sys2Proof.Machine

/-- `D(s, x, y)` over a store and a bit order (R64). -/
def Memory.pixel (m : Memory) (o : BitOrder) (x : Column) (y : PixelRow) : Bool :=
  byteBit (m.read (stripAddr (pageOfRow y) x).toNat) (bitIndex o (rowInPage y))

/-- `D(s, x, y)` (R64): the decoded pixel. -/
def State.decodedPixel (s : State) (x : Column) (y : PixelRow) : Bool := s.fb.pixel s.bitOrder x y

/-- `P(s, x, y) = D(s, x, y) XOR CFG.INVERT` (R65): the displayed pixel. -/
def State.displayedPixel (s : State) (x : Column) (y : PixelRow) : Bool := s.decodedPixel x y ^^ s.invert

/-- The 8 displayed pixels of a column strip, bit 0 = the top row (R68). -/
def State.stripByte (s : State) (x : Column) (page : Page) : Byte :=
  packByte fun i => s.displayedPixel x (rowOfPage page i)

/-- The 8 displayed pixels of a row group, bit 0 = the leftmost column (R69). -/
def State.rowByte (s : State) (g : BitVec 4) (y : PixelRow) : Byte :=
  packByte fun i => s.displayedPixel (columnOfGroup g i) y

/-- RDPIX (R67). -/
def execRdpix (x : Column) (y : PixelRow) (s : State) : Host.Outcome State Fault Refusal :=
  .next (s.respond (zext32 (BitVec.ofBool (s.displayedPixel x y))))

/-- RDSTRIP (R68). -/
def execRdstrip (x : Column) (page : Page) (s : State) : Host.Outcome State Fault Refusal :=
  .next (s.respond (zext32 (s.stripByte x page)))

/-- RDROW8 (R69). -/
def execRdrow8 (g : BitVec 4) (y : PixelRow) (s : State) : Host.Outcome State Fault Refusal :=
  .next (s.respond (zext32 (s.rowByte g y)))

end Sys2Proof.Machine
end

