-- ==== Sys2Proof/Machine/Dispatch.lean ====
section
/-! DEFINITION. What each command does: the dispatch of R52, one arm per constructor of Instr. -/

namespace Sys2Proof.Machine

def exec (i : Instr) (s : State) : Host.Outcome State Fault Refusal :=
  match i with
  | .nop => Sys2Proof.Machine.execNop s
  | .loadstart => Sys2Proof.Machine.execLoadstart s
  | .loadbyte data => Sys2Proof.Machine.execLoadbyte data s
  | .wrbyte addr data => Sys2Proof.Machine.execWrbyte addr data s
  | .rdbyte addr => Sys2Proof.Machine.execRdbyte addr s
  | .rdpix x y => Sys2Proof.Machine.execRdpix x y s
  | .rdstrip x page => Sys2Proof.Machine.execRdstrip x page s
  | .rdrow8 g y => Sys2Proof.Machine.execRdrow8 g y s
  | .wrcfg order inv => Sys2Proof.Machine.execWrcfg order inv s
  | .rdcfg => Sys2Proof.Machine.execRdcfg s
  | .rdstat => Sys2Proof.Machine.execRdstat s
  | .clrstat => Sys2Proof.Machine.execClrstat s

end Sys2Proof.Machine
end

