-- ==== Sys2Proof/Machine/Port.lean ====
section
/-! DEFINITION. The command port: executing one command word (R43, R52), the transaction-level run of R46, and one rising
edge of `clk` with its acceptance, its delivery and its reset (R45, R93, R96, R99). -/

namespace Sys2Proof.Machine

/-- `Step(s, cmd)` of R52: decode the word and execute it, or raise IllegalCommand. -/
def execWord (w : Word) (s : State) : Host.Outcome State Fault Refusal :=
  match decode w with
  | .ok i => exec i s
  | .error _ => raiseIllegalCommand s

/-- The transaction-level run of R46: a sequence of accepted command words, in order. -/
def execWords : List Word → State → Host.Outcome State Fault Refusal
  | [], s => .next s
  | w :: ws, s =>
    match execWord w s with
    | .next t => execWords ws t
    | .fault r => .fault r
    | .refused r => .refused r

/-- An edge at which nothing happens: what the port sees while the host offers nothing, takes nothing and does not
reset (R92: the block "waits for the host's first command"). -/
def Edge.idle : Edge where
  rst := false
  cmdValid := false
  cmdData := 0
  rspReady := false
  willAccept := false
  willPresent := false

/-- An edge at which a command word is accepted and no response is taken. -/
def Edge.command (w : Word) : Edge :=
  { Edge.idle with cmdValid := true, cmdData := w, willAccept := true }

/-- `cmd_ready` at an edge (R45): 0 while `rst = 1` (R93), and else as the block's timing has it. -/
def Edge.cmdReady (e : Edge) : Bool := !e.rst && e.willAccept

/-- R45: a command is accepted iff `rst = 0`, `cmd_valid = 1` and `cmd_ready = 1`. -/
def Edge.accepts (e : Edge) : Bool := !e.rst && e.cmdValid && e.cmdReady

/-- The command words a list of edges accepts, in order. -/
def acceptedWords (es : List Edge) : List Word := (es.filter Edge.accepts).map Edge.cmdData

/-- `rsp_valid` at an edge (R45), in the state that the command side of the edge leaves: 0 while `rst = 1` (R93), and
else 1 iff a response waits and either it is offered already and stays offered, or the block raises it now. -/
def State.rspValid (s : State) (e : Edge) : Bool := !e.rst && !s.pending.isEmpty && (s.offered || e.willPresent)

/-- `rsp_data` while `rsp_valid` is 1: the oldest response that is not yet delivered (R96). -/
def State.rspData (s : State) : Option Word := s.pending.head?

/-- The delivery of the oldest pending response (R45, R96). -/
def State.deliver (s : State) : State :=
  match s.pending with
  | [] => s
  | r :: rs => { s with pending := rs, offered := false, delivered := s.delivered ++ [r] }

/-- The response side of an edge without reset (R45): a response is delivered iff `rsp_valid = 1` and `rsp_ready = 1`,
and one that is offered and not taken stays offered. -/
def State.responseEdge (e : Edge) (s : State) : State :=
  if s.rspValid e then (if e.rspReady then s.deliver else { s with offered := true }) else s

/-- The command side of an edge without reset (R45). -/
def commandEdge (e : Edge) (s : State) : Host.Outcome State Fault Refusal :=
  if e.accepts then execWord e.cmdData s else .next s

/-- One rising edge of `clk`: reset where `rst = 1` (R93), and else the command side, then the response side. A response
may so be presented at the edge that accepts its command: CMD_LATENCY may be 0 (R6). -/
def clockEdge (e : Edge) (s : State) : Host.Outcome State Fault Refusal :=
  if e.rst then .next s.applyReset else afterNext (State.responseEdge e) (commandEdge e s)

/-- The edge that comes next; the idle edge where the host has nothing more to do. -/
def State.nextEdge (s : State) : Edge := s.edges.headD Edge.idle

/-- The state whose next edge has been taken off the list. -/
def State.dropEdge (s : State) : State := { s with edges := s.edges.tail }

/-- `cmd_ready` at the next edge. -/
def State.nextCmdReady (s : State) : Bool := s.nextEdge.cmdReady

/-- `rsp_valid` at the next edge: what the response side sees, after the command side. -/
def State.nextRspValid (s : State) : Bool :=
  match commandEdge s.nextEdge s.dropEdge with
  | .next t => t.rspValid s.nextEdge
  | .fault _ => false
  | .refused _ => false

/-- The state whose next edge accepts a command word. -/
def State.withCommand (s : State) (w : Word) : State := { s with edges := Edge.command w :: s.edges }

end Sys2Proof.Machine
end

