-- ==== Sys2Proof/Machine/Step.lean ====
section
/-! DEFINITION. The step of the machine: the next rising edge of `clk` at the command port. -/

namespace Sys2Proof.Machine

/-- One step: the next edge of the port. There is no program counter and no fetch (R16); a command comes from the host. -/
def step (s : State) : Host.Outcome State Fault Refusal := clockEdge s.nextEdge s.dropEdge

/-- The state whose next edge accepts the opcode-table word `w`: the host's next command is the block's next
instruction (R16, R45). A word of fewer than 32 bits has zeros above. -/
def State.withFetchWord (s : State) (nbits w : Nat) : State := s.withCommand (tableWord nbits w)

end Sys2Proof.Machine
end

