-- ==== Sys2Proof/WellFormed.lean ====
section
/-! DEFINITION. The assembler's range check (R56) over the field ranges of R48. A decoded command needs none: the
fields of `Instr` have exactly the widths of R47, so every `Instr` is well formed by its type ("no field value is out
of range", R48; "The block never sees such an operand", R56). -/

namespace Sys2Proof

/-- `data`: 8 bits, 0..255 (R48). -/
def dataInRange (n : Nat) : Bool := n < 256

/-- `addr`: 10 bits, every FB address (R48). -/
def addrInRange (n : Nat) : Bool := n < Config.fbBytes

/-- `x`: 7 bits, every column (R48). -/
def columnInRange (n : Nat) : Bool := n < Config.width

/-- `y`: 6 bits, every row (R48). -/
def rowInRange (n : Nat) : Bool := n < Config.height

/-- `page`: 3 bits, every page (R48). -/
def pageInRange (n : Nat) : Bool := n < Config.pages

/-- `g`: 4 bits, every group of 8 columns (R48). -/
def groupInRange (n : Nat) : Bool := n < 16

/-- `order` and `inv`: 1 bit each (R48). -/
def bitInRange (n : Nat) : Bool := n < 2

/-- The operand of `.word`: any 32-bit value (R53). -/
def wordInRange (n : Nat) : Bool := n < 2 ^ 32

/-- What the assembler accepts (R56). The operands of a pseudo-instruction are checked as the fields they name, before
the expansion of R54 combines them: `WRPC 0, 128, 0` is refused though address 128 exists. DEDUCED, log entry 8. -/
def Stmt.wellFormed : Stmt → Bool
  | .nop => true
  | .loadstart => true
  | .loadbyte d => dataInRange d
  | .wrbyte a d => addrInRange a && dataInRange d
  | .rdbyte a => addrInRange a
  | .rdpix x y => columnInRange x && rowInRange y
  | .rdstrip x p => columnInRange x && pageInRange p
  | .rdrow8 g y => groupInRange g && rowInRange y
  | .wrcfg o i => bitInRange o && bitInRange i
  | .rdcfg => true
  | .rdstat => true
  | .clrstat => true
  | .word v => wordInRange v
  | .clear => true
  | .loadbuf bs => bs.all dataInRange
  | .wrpc p x d => pageInRange p && columnInRange x && dataInRange d
  | .rdpc p x => pageInRange p && columnInRange x
  | .setorder o => bitInRange o

end Sys2Proof
end

