-- ==== Sys2Proof/Machine/Assembler.lean ====
section
/-! DEFINITION. The assembler of R53, R54 and R56: from a source line to its statement, and from a statement to its
command words. It is no part of the block; the spec gives it for test programs (D21). -/

namespace Sys2Proof.Machine

/-- The words of a statement whose operands are in range (R53), a pseudo-instruction as its expansion (R54). -/
def stmtWords : Stmt → List Word
  | .nop => [encode .nop]
  | .loadstart => [encode .loadstart]
  | .loadbyte d => [encode (.loadbyte (BitVec.ofNat 8 d))]
  | .wrbyte a d => [encode (.wrbyte (BitVec.ofNat 10 a) (BitVec.ofNat 8 d))]
  | .rdbyte a => [encode (.rdbyte (BitVec.ofNat 10 a))]
  | .rdpix x y => [encode (.rdpix (BitVec.ofNat 7 x) (BitVec.ofNat 6 y))]
  | .rdstrip x p => [encode (.rdstrip (BitVec.ofNat 7 x) (BitVec.ofNat 3 p))]
  | .rdrow8 g y => [encode (.rdrow8 (BitVec.ofNat 4 g) (BitVec.ofNat 6 y))]
  | .wrcfg o i => [encode (.wrcfg (.ofBit (o == 1)) (i == 1))]
  | .rdcfg => [encode .rdcfg]
  | .rdstat => [encode .rdstat]
  | .clrstat => [encode .clrstat]
  | .word v => [BitVec.ofNat 32 v]
  | .clear => [encode .loadstart]
  | .loadbuf bs => encode .loadstart :: bs.map fun b => encode (.loadbyte (BitVec.ofNat 8 b))
  | .wrpc p x d => [encode (.wrbyte (BitVec.ofNat 10 (p * 128 + x)) (BitVec.ofNat 8 d))]
  | .rdpc p x => [encode (.rdbyte (BitVec.ofNat 10 (p * 128 + x)))]
  | .setorder o => [encode (.wrcfg (.ofBit (o == 1)) false)]

/-- The assembler on a statement: its words, or an error and no word (R56). -/
def assemble (st : Stmt) : Except AsmError (List Word) :=
  if st.wellFormed then .ok (stmtWords st) else .error .operandOutOfRange

/-- The statement of a command (R57). -/
def stmtOfInstr : Instr → Stmt
  | .nop => .nop
  | .loadstart => .loadstart
  | .loadbyte d => .loadbyte d.toNat
  | .wrbyte a d => .wrbyte a.toNat d.toNat
  | .rdbyte a => .rdbyte a.toNat
  | .rdpix x y => .rdpix x.toNat y.toNat
  | .rdstrip x p => .rdstrip x.toNat p.toNat
  | .rdrow8 g y => .rdrow8 g.toNat y.toNat
  | .wrcfg o i => .wrcfg o.bit.toNat i.toNat
  | .rdcfg => .rdcfg
  | .rdstat => .rdstat
  | .clrstat => .clrstat

/-- The pseudo-instructions of R54 as the statements they stand for; every other statement is itself. -/
def expandStmt : Stmt → List Stmt
  | .clear => [.loadstart]
  | .loadbuf bs => .loadstart :: bs.map .loadbyte
  | .wrpc p x d => [.wrbyte (p * 128 + x) d]
  | .rdpc p x => [.rdbyte (p * 128 + x)]
  | .setorder o => [.wrcfg o 0]
  | st => [st]

/-- A blank of a source line. DESIGN CHOICE, log entry 8. -/
def isBlankChar (c : Char) : Bool := c == ' ' || c == '\t' || c == '\r'

/-- A line without its comment: `;` starts one that runs to the end of the line (R53). -/
def dropComment (cs : List Char) : List Char := cs.takeWhile fun c => c != ';'

/-- A text without the blanks at its ends. -/
def trimBlanks (cs : List Char) : List Char :=
  ((cs.dropWhile isBlankChar).reverse.dropWhile isBlankChar).reverse

/-- The pieces of a text between separators. -/
def splitAtChar (sep : Char) : List Char → List (List Char)
  | [] => [[]]
  | c :: cs =>
    match splitAtChar sep cs with
    | [] => [[c]]
    | p :: ps => if c == sep then [] :: p :: ps else (c :: p) :: ps

/-- The value of a digit in a base of at most 16. -/
def digitValue (base : Nat) (c : Char) : Option Nat :=
  let n := c.toNat
  let v := if 48 ≤ n && n ≤ 57 then n - 48
    else if 65 ≤ n && n ≤ 70 then n - 55
    else if 97 ≤ n && n ≤ 102 then n - 87
    else base
  if v < base then some v else none

/-- The value of digits, after those before them gave `acc`. -/
def digitsValue (base : Nat) : Nat → List Char → Option Nat
  | acc, [] => some acc
  | acc, c :: cs =>
    match digitValue base c with
    | some v => digitsValue base (acc * base + v) cs
    | none => none

/-- A number: decimal, `0x` hexadecimal or `0b` binary (R53), at least one digit. -/
def parseNumber : List Char → Option Nat
  | [] => none
  | '0' :: 'x' :: c :: cs => digitsValue 16 0 (c :: cs)
  | '0' :: 'b' :: c :: cs => digitsValue 2 0 (c :: cs)
  | c :: cs => digitsValue 10 0 (c :: cs)

/-- An order: `LSB` = 0, `MSB` = 1, or a number (R53, R56). -/
def parseOrder : List Char → Option Nat
  | ['L', 'S', 'B'] => some 0
  | ['M', 'S', 'B'] => some 1
  | cs => parseNumber cs

/-- The numbers of a list of operands, all of them or none. -/
def parseNumbers : List (List Char) → Option (List Nat)
  | [] => some []
  | o :: os =>
    match parseNumber o, parseNumbers os with
    | some n, some ns => some (n :: ns)
    | _, _ => none

/-- The operands of a line: separated by `,` (R53), none where nothing follows the mnemonic. -/
def operandTexts (cs : List Char) : List (List Char) :=
  match trimBlanks cs with
  | [] => []
  | t => (splitAtChar ',' t).map trimBlanks

/-- A statement of a mnemonic that takes `n` numbers. -/
def numberStmt (n : Nat) (os : List (List Char)) (build : List Nat → Stmt) : Except AsmError Stmt :=
  if os.length == n then
    match parseNumbers os with
    | some ns => .ok (build ns)
    | none => .error .badOperand
  else .error .wrongOperandCount

/-- A statement of a mnemonic whose first operand is an order and that takes `n` numbers after it. -/
def orderStmt (n : Nat) (os : List (List Char)) (build : Nat → List Nat → Stmt) : Except AsmError Stmt :=
  match os with
  | [] => .error .wrongOperandCount
  | o :: rest =>
    if rest.length == n then
      match parseOrder o, parseNumbers rest with
      | some v, some ns => .ok (build v ns)
      | _, _ => .error .badOperand
    else .error .wrongOperandCount

/-- The operand of an index, of a list that has one there. -/
def operandAt (ns : List Nat) (k : Nat) : Nat := ns.getD k 0

/-- The statement of a mnemonic and its operands (R53, R54). -/
def parseStmt (mnemonic : List Char) (os : List (List Char)) : Except AsmError Stmt :=
  if mnemonic == "NOP".toList then numberStmt 0 os fun _ => .nop
  else if mnemonic == "LOADSTART".toList then numberStmt 0 os fun _ => .loadstart
  else if mnemonic == "LOADBYTE".toList then numberStmt 1 os fun ns => .loadbyte (operandAt ns 0)
  else if mnemonic == "WRBYTE".toList then numberStmt 2 os fun ns => .wrbyte (operandAt ns 0) (operandAt ns 1)
  else if mnemonic == "RDBYTE".toList then numberStmt 1 os fun ns => .rdbyte (operandAt ns 0)
  else if mnemonic == "RDPIX".toList then numberStmt 2 os fun ns => .rdpix (operandAt ns 0) (operandAt ns 1)
  else if mnemonic == "RDSTRIP".toList then numberStmt 2 os fun ns => .rdstrip (operandAt ns 0) (operandAt ns 1)
  else if mnemonic == "RDROW8".toList then numberStmt 2 os fun ns => .rdrow8 (operandAt ns 0) (operandAt ns 1)
  else if mnemonic == "WRCFG".toList then orderStmt 1 os fun o ns => .wrcfg o (operandAt ns 0)
  else if mnemonic == "RDCFG".toList then numberStmt 0 os fun _ => .rdcfg
  else if mnemonic == "RDSTAT".toList then numberStmt 0 os fun _ => .rdstat
  else if mnemonic == "CLRSTAT".toList then numberStmt 0 os fun _ => .clrstat
  else if mnemonic == ".word".toList then numberStmt 1 os fun ns => .word (operandAt ns 0)
  else if mnemonic == "CLEAR".toList then numberStmt 0 os fun _ => .clear
  else if mnemonic == "LOADBUF".toList then numberStmt os.length os .loadbuf
  else if mnemonic == "WRPC".toList then numberStmt 3 os fun ns => .wrpc (operandAt ns 0) (operandAt ns 1) (operandAt ns 2)
  else if mnemonic == "RDPC".toList then numberStmt 2 os fun ns => .rdpc (operandAt ns 0) (operandAt ns 1)
  else if mnemonic == "SETORDER".toList then orderStmt 0 os fun o _ => .setorder o
  else .error .unknownMnemonic

/-- A source line (R53): the words of its statement, and none for a line that is blank but for a comment. -/
def assembleLine (line : List Char) : Except AsmError (List Word) :=
  match trimBlanks (dropComment line) with
  | [] => .ok []
  | t =>
    match parseStmt (t.takeWhile fun c => !isBlankChar c) (operandTexts (t.dropWhile fun c => !isBlankChar c)) with
    | .ok st => assemble st
    | .error r => .error r

/-- The words of a list of lines, or the first error. -/
def assembleLines : List (List Char) → Except AsmError (List Word)
  | [] => .ok []
  | l :: ls =>
    match assembleLine l with
    | .error r => .error r
    | .ok ws =>
      match assembleLines ls with
      | .error r => .error r
      | .ok rest => .ok (ws ++ rest)

/-- A source text: one statement a line (R53). -/
def assembleText (text : List Char) : Except AsmError (List Word) := assembleLines (splitAtChar '\n' text)

end Sys2Proof.Machine
end

