-- ==== Sys2Proof/Safety.lean ====
section
/-! DEFINITION. What counts as a good state and a fair run of the port, in the terms the statements use. -/

namespace Sys2Proof.Machine

/-- The invariant of the block: FB is in its canonical form (all cells within 0..1023), WPTR ≤ 1024 (R21), TRUNC is set
only while FB is full (R24 with R58, R59, R77), and `rsp_valid` is raised only while a response waits (R45). -/
def Inv (s : State) : Prop :=
  s.fb.wf = true ∧ s.wptr.toNat ≤ Config.fbBytes ∧ (s.trunc = true → s.wptr.toNat = Config.fbBytes) ∧
    (s.offered = true → s.pending ≠ [])

/-- No edge of the list resets. -/
def NoReset (es : List Edge) : Prop := ∀ e ∈ es, e.rst = false

/-- The host's duty at the command port (R45, R91): once it raises `cmd_valid` it keeps `cmd_valid` and `cmd_data` until
the command is accepted. -/
def HostHolds : List Edge → Prop
  | [] => True
  | e :: es =>
    (e.cmdValid = true → e.accepts = false → ∀ f ∈ es.head?, f.cmdValid = true ∧ f.cmdData = e.cmdData) ∧ HostHolds es

/-- `P` holds of the state before each edge that a run from `s` has still to take. -/
def Along (P : State → Prop) (s : State) : Prop :=
  ∀ k t, k < s.edges.length → core.run k s = .next t → P t

/-- The host's part of R97: it keeps `rsp_ready = 1` whenever `rsp_valid = 1`. -/
def HostTakes (s : State) : Prop := Along (fun t => t.nextRspValid = true → t.nextEdge.rspReady = true) s

/-- A run from `s` comes, after at most `n` edges, to an edge at which a signal is 1. -/
def BecomesWithin (n : Nat) (signal : State → Bool) (s : State) : Prop :=
  ∃ j ≤ n, ∃ t, core.run j s = .next t ∧ signal t = true

/-- The block's part of R97 for responses: while one waits, `rsp_valid` becomes 1 within `n` edges. -/
def PresentsWithin (n : Nat) (s : State) : Prop :=
  Along (fun t => n < t.edges.length → t.pending ≠ [] → BecomesWithin n State.nextRspValid t) s

/-- The block's part of R97 for commands: where every accepted command has been answered, `cmd_ready` becomes 1 within
`n` edges. Nothing is asked of it while a response waits. -/
def ReadyWithin (n : Nat) (s : State) : Prop :=
  Along (fun t => n < t.edges.length → t.pending = [] → BecomesWithin n State.nextCmdReady t) s

/-- The state of R15, without the port. -/
def SameBlock (s t : State) : Prop :=
  t.fb = s.fb ∧ t.invert = s.invert ∧ t.bitOrder = s.bitOrder ∧ t.wptr = s.wptr ∧ t.ill = s.ill ∧ t.trunc = s.trunc

/-- What no command touches: the edges to come, and the response side of the port beyond the queue of responses. -/
def SamePort (s t : State) : Prop :=
  t.edges = s.edges ∧ t.offered = s.offered ∧ t.delivered = s.delivered

/-- A word that is answered as an illegal command from every state, with R80's effect and no other. -/
def AnswersIllegal (w : Word) : Prop :=
  ∀ s : State, execWord w s = .next { s with ill := true, pending := s.pending ++ [0x80000000#32] }

/-- The exceptions line of a command's rule: a word of the opcode with one of the named bits set is illegal. -/
def ReservedBitsAreIllegal (op : BitVec 4) (reserved : Word) : Prop :=
  ∀ w : Word, opcodeOf w = op → w &&& reserved ≠ 0 → AnswersIllegal w

/-- The 32-bit response word of an unsigned number (R8, R44). -/
def responseOf (n : Nat) : Word := BitVec.ofNat 32 n

/-- `P(s, x, y)` of R64 and R65 in plain numbers: the byte at `page*128 + x`, its bit `y % 8` counted from the order's
end, negated where INVERT is 1. -/
def State.pixelAt (s : State) (x y : Nat) : Bool :=
  (s.fb.read (y / 8 * 128 + x)).getLsbD (if s.bitOrder = .lsbFirst then y % 8 else 7 - y % 8) ^^ s.invert

/-- The commands among a list of words: the legal ones, decoded. -/
def commandsOf (ws : List Word) : List Instr :=
  ws.filterMap fun w => match decode w with
    | .ok i => some i
    | .error _ => none

/-- The byte a LOADBYTE carries. -/
def loadedByte : Instr → Option Byte
  | .loadbyte d => some d
  | .nop | .loadstart | .wrbyte _ _ | .rdbyte _ | .rdpix _ _ | .rdstrip _ _ | .rdrow8 _ _ | .wrcfg _ _ | .rdcfg
  | .rdstat | .clrstat => none

/-- The byte level of the source's `parse`: the accepted values, padded with zero bytes and truncated to 1024 (R62). -/
def parsedBuffer (bs : List Byte) : List Byte := (bs ++ List.replicate 1024 0x00).take 1024

/-- The writes to one cell as R58, R59 and R60 give them, over the load pointer and the byte the cell holds. -/
def cellAfter (a : Nat) : List Instr → Nat × Byte → Nat × Byte
  | [], pv => pv
  | .loadstart :: is, _ => cellAfter a is (0, 0x00)
  | .loadbyte d :: is, (p, v) =>
    if p < 1024 then cellAfter a is (p + 1, if p = a then d else v) else cellAfter a is (p, v)
  | .wrbyte b d :: is, (p, v) => cellAfter a is (p, if b.toNat = a then d else v)
  | .nop :: is, pv | .rdbyte _ :: is, pv | .rdpix _ _ :: is, pv | .rdstrip _ _ :: is, pv | .rdrow8 _ _ :: is, pv
  | .wrcfg _ _ :: is, pv | .rdcfg :: is, pv | .rdstat :: is, pv | .clrstat :: is, pv => cellAfter a is pv

/-- The configuration the last WRCFG of a list leaves, and the one before the list where it holds none. -/
def configAfter : List Instr → BitOrder × Bool → BitOrder × Bool
  | [], c => c
  | .wrcfg o v :: is, _ => configAfter is (o, v)
  | .nop :: is, c | .loadstart :: is, c | .loadbyte _ :: is, c | .wrbyte _ _ :: is, c | .rdbyte _ :: is, c
  | .rdpix _ _ :: is, c | .rdstrip _ _ :: is, c | .rdrow8 _ _ :: is, c | .rdcfg :: is, c | .rdstat :: is, c
  | .clrstat :: is, c => configAfter is c

/-- The displayed pixel (x, y) that a run's writes leave (R39, R64, R65): the byte of `cellAfter` at its address, its bit
under the order of `configAfter`, negated where the inversion of `configAfter` is 1. -/
def State.pixelAfter (s : State) (is : List Instr) (x y : Nat) : Bool :=
  let a := y / 8 * 128 + x
  let c := configAfter is (s.bitOrder, s.invert)
  (cellAfter a is (s.wptr.toNat, s.fb.read a)).2.getLsbD (if c.1 = .lsbFirst then y % 8 else 7 - y % 8) ^^ c.2

end Sys2Proof.Machine
end

