-- ==== Sys2Proof/Certificates/Slice0/Obligations.lean ====
section
/-! DEFINITION. The statements for the provers. Each says what a rule of the spec says, in plain numbers or through the
read of one byte, one field or one response; `t = { s with … }` is the frame: every field it does not name is
unchanged. -/

open Sys2Proof Sys2Proof.Machine

/-! ## Encoding -/

/-- Decode and encode agree: no bit of any operand of any command is dropped (30_encoding.md). -/
def Obligations.DecodeOfEncodeIsTheInstruction : Prop := ∀ i : Instr, decode (encode i) = .ok i

/-- R57: decoding a legal word and assembling the result again gives the word, and assembling an in-range operand list
and decoding the word gives the operand list. -/
def Obligations.EncoderIdentityBothWays : Prop :=
  (∀ w, isLegal w = true → ∃ i, decode w = .ok i ∧ encode i = w ∧ assemble (stmtOfInstr i) = .ok [w]) ∧
  (∀ i, ∃ w, assemble (stmtOfInstr i) = .ok [w] ∧ decode w = .ok i) ∧
  (∀ a d, a < 1024 → d < 256 → ∃ w i, assemble (.wrbyte a d) = .ok [w] ∧ decode w = .ok i ∧ stmtOfInstr i = .wrbyte a d) ∧
  (∀ d, d < 256 → ∃ w i, assemble (.loadbyte d) = .ok [w] ∧ decode w = .ok i ∧ stmtOfInstr i = .loadbyte d) ∧
  (∀ a, a < 1024 → ∃ w i, assemble (.rdbyte a) = .ok [w] ∧ decode w = .ok i ∧ stmtOfInstr i = .rdbyte a) ∧
  (∀ x y, x < 128 → y < 64 → ∃ w i, assemble (.rdpix x y) = .ok [w] ∧ decode w = .ok i ∧ stmtOfInstr i = .rdpix x y) ∧
  (∀ x p, x < 128 → p < 8 → ∃ w i, assemble (.rdstrip x p) = .ok [w] ∧ decode w = .ok i ∧ stmtOfInstr i = .rdstrip x p) ∧
  (∀ g y, g < 16 → y < 64 → ∃ w i, assemble (.rdrow8 g y) = .ok [w] ∧ decode w = .ok i ∧ stmtOfInstr i = .rdrow8 g y) ∧
  (∀ o v, o < 2 → v < 2 → ∃ w i, assemble (.wrcfg o v) = .ok [w] ∧ decode w = .ok i ∧ stmtOfInstr i = .wrcfg o v) ∧
  (∀ st ∈ [Stmt.nop, .loadstart, .rdcfg, .rdstat, .clrstat],
    ∃ w i, assemble st = .ok [w] ∧ decode w = .ok i ∧ stmtOfInstr i = st)

/-- R50: a word is legal iff some row of R49 matches it; the rows have pairwise different opcodes and every mask covers
bits 31:28, so at most one row matches; and the decoder accepts the legal words, each as the command of its row. -/
def Obligations.LegalExactlyWhenOneRowMatches : Prop :=
  (∀ w, (∃ i, decode w = .ok i) ↔ ∃ r ∈ opcodeTable, w &&& r.mask = r.pattern) ∧
  (opcodeTable.Pairwise fun r q => opcodeOf r.pattern ≠ opcodeOf q.pattern) ∧
  (∀ r ∈ opcodeTable, opcodeOf r.mask = 0xF) ∧
  (∀ w, ∀ r ∈ opcodeTable, ∀ q ∈ opcodeTable, w &&& r.mask = r.pattern → w &&& q.mask = q.pattern → r = q) ∧
  (∀ w i, decode w = .ok i → ∃ r ∈ opcodeTable, w &&& r.mask = r.pattern ∧ r.mnemonic = i.mnemonic)

/-- R51: the illegal words are exactly those of opcode 0xC..0xF and those with a 1 in a bit their row's mask covers below
bit 28; every one of them raises IllegalCommand; and 273 673 of the 2^32 words are legal. -/
def Obligations.IllegalWordsAndTheCountOfLegalOnes : Prop :=
  (∀ w, isLegal w = false ↔
    12 ≤ (opcodeOf w).toNat ∨
    ∃ r ∈ opcodeTable, opcodeOf r.pattern = opcodeOf w ∧ w &&& r.mask &&& 0x0FFFFFFF#32 ≠ 0) ∧
  (∀ w, isLegal w = false → AnswersIllegal w) ∧
  (2 ^ 8 + 2 ^ 18 + 2 ^ 10 + 2 ^ 13 + 2 ^ 10 + 2 ^ 10 + 2 ^ 2 + 5 = 273673) ∧
  Nat.card {w : Word // isLegal w = true} = 273673

/-- R79: which of its two causes a word's IllegalCommand has, that a word raises it iff it is not legal, and the rule's
five examples. -/
def Obligations.IllegalCommandHasTwoCauses : Prop :=
  (∀ w, decode w = .error .reservedOpcode ↔ 12 ≤ (opcodeOf w).toNat) ∧
  (∀ w, decode w = .error .reservedBitSet ↔
    (opcodeOf w).toNat < 12 ∧ ∃ r ∈ opcodeTable, opcodeOf r.pattern = opcodeOf w ∧ w &&& r.mask ≠ r.pattern) ∧
  (∀ w, isLegal w = false → ∀ s, execWord w s = raiseIllegalCommand s) ∧
  (∀ w, isLegal w = true → ∀ s : State, s.ill = false →
    ∃ t, execWord w s = .next t ∧ t.ill = false) ∧
  (∀ w ∈ [0xC0000000#32, 0x00000001#32, 0x20000100#32, 0x50000080#32, 0x80000004#32], AnswersIllegal w)

/-- Words of 95_test_vectors.md section 2.1, and the commands they stand for (a sanity check of the decoder). -/
def Obligations.TestVectorWordsDecode : Prop :=
  decode 0x200000FF = .ok (.loadbyte 0xFF) ∧ decode 0x33FF00FF = .ok (.wrbyte 1023 0xFF) ∧
  decode 0x43FF0000 = .ok (.rdbyte 1023) ∧ decode 0x50003F7F = .ok (.rdpix 127 63) ∧
  decode 0x60000725 = .ok (.rdstrip 37 7) ∧ decode 0x70003F0F = .ok (.rdrow8 15 63) ∧
  decode 0x80000003 = .ok (.wrcfg .msbFirst true) ∧ decode 0xB0000000 = .ok .clrstat ∧
  decode 0x34000000 = .error .reservedBitSet ∧ decode 0xFFFFFFFF = .error .reservedOpcode

/-- R56: an operand outside its field's range is rejected with an error and no word, and an operand inside is not; an
order is `LSB`, `MSB` or a number, which must be 0 or 1. That the operands of a pseudo-instruction are checked as the
fields they name is the model's reading, log entry 8. -/
def Obligations.AssemblerRejectsOperandsOutOfRange : Prop :=
  (∀ d, assemble (.loadbyte d) = .error .operandOutOfRange ↔ 256 ≤ d) ∧
  (∀ a d, assemble (.wrbyte a d) = .error .operandOutOfRange ↔ 1024 ≤ a ∨ 256 ≤ d) ∧
  (∀ a, assemble (.rdbyte a) = .error .operandOutOfRange ↔ 1024 ≤ a) ∧
  (∀ x y, assemble (.rdpix x y) = .error .operandOutOfRange ↔ 128 ≤ x ∨ 64 ≤ y) ∧
  (∀ x p, assemble (.rdstrip x p) = .error .operandOutOfRange ↔ 128 ≤ x ∨ 8 ≤ p) ∧
  (∀ g y, assemble (.rdrow8 g y) = .error .operandOutOfRange ↔ 16 ≤ g ∨ 64 ≤ y) ∧
  (∀ o v, assemble (.wrcfg o v) = .error .operandOutOfRange ↔ 2 ≤ o ∨ 2 ≤ v) ∧
  (∀ v, assemble (.word v) = .error .operandOutOfRange ↔ 2 ^ 32 ≤ v) ∧
  (∀ bs, assemble (.loadbuf bs) = .error .operandOutOfRange ↔ ∃ b ∈ bs, 256 ≤ b) ∧
  (∀ p x d, assemble (.wrpc p x d) = .error .operandOutOfRange ↔ 8 ≤ p ∨ 128 ≤ x ∨ 256 ≤ d) ∧
  (∀ p x, assemble (.rdpc p x) = .error .operandOutOfRange ↔ 8 ≤ p ∨ 128 ≤ x) ∧
  (∀ o, assemble (.setorder o) = .error .operandOutOfRange ↔ 2 ≤ o) ∧
  (∀ st, (∃ ws, assemble st = .ok ws) ∨ assemble st = .error .operandOutOfRange) ∧
  (∀ cs n, parseOrder cs = some n → cs = ['L', 'S', 'B'] ∧ n = 0 ∨ cs = ['M', 'S', 'B'] ∧ n = 1 ∨ parseNumber cs = some n)

/-- The pseudo-instructions (30_encoding.md section 5) assemble to the commands they expand to, in order, and with their
operands in range the expansion's operands are in range too. -/
def Obligations.PseudoInstructionsAssembleToTheirExpansion : Prop :=
  (∀ st : Stmt, st.wellFormed = true →
    assemble st = .ok ((expandStmt st).flatMap stmtWords) ∧ ∀ q ∈ expandStmt st, q.wellFormed = true) ∧
  expandStmt .clear = [.loadstart] ∧
  (∀ bs, expandStmt (.loadbuf bs) = .loadstart :: bs.map .loadbyte) ∧
  (∀ p x d, expandStmt (.wrpc p x d) = [.wrbyte (p * 128 + x) d]) ∧
  (∀ p x, expandStmt (.rdpc p x) = [.rdbyte (p * 128 + x)]) ∧
  (∀ o, expandStmt (.setorder o) = [.wrcfg o 0])

/-! ## The step and the port -/

/-- A step at an edge that accepts a word runs the command the decoder reads from it, and then the response side of the
edge; an illegal word raises IllegalCommand; a state whose next edge is a plain command edge steps as the command. That
the command side of an edge comes before its response side is the model's reading (log entry 4), and so is how a program
word is put before the block (log entries 1 and 10). -/
def Obligations.StepRunsTheDecodedCommand : Prop :=
  (∀ (s : State) (e : Edge) (es : List Edge) (i : Instr),
    s.edges = e :: es → e.rst = false → e.cmdValid = true → e.cmdReady = true → decode e.cmdData = .ok i →
    step s = afterNext (State.responseEdge e) (exec i { s with edges := es })) ∧
  (∀ (s : State) (e : Edge) (es : List Edge) (r : DecodeError),
    s.edges = e :: es → e.rst = false → e.cmdValid = true → e.cmdReady = true → decode e.cmdData = .error r →
    step s = .next (State.responseEdge e
      { s with edges := es, ill := true, pending := s.pending ++ [0x80000000#32] })) ∧
  (∀ (s : State) (w : Word) (i : Instr), decode w = .ok i → step (s.withFetchWord 32 w.toNat) = exec i s)

/-- Where the host has nothing more to do, a step changes nothing (70_reset_and_hazards.md section 1: the block "waits
for the host's first command"). The empty list as an idle port is the model's choice, log entry 1. -/
def Obligations.IdlePortLeavesTheStateAlone : Prop :=
  ∀ s : State, s.edges = [] → step s = .next s

/-- From every state, in the middle of whatever traffic, a step answers a next state: nothing faults, nothing is refused,
and the block never blocks (30_encoding.md sections 1 and 4). -/
def Obligations.EveryStepAnswersANextState : Prop :=
  (∀ s : State, ∃ t, step s = .next t) ∧ (∀ (w : Word) (s : State), ∃ t, execWord w s = .next t)

/-- R44: every command, legal or illegal, produces exactly one response word, `rsp[31]` is 1 iff it was illegal, the
commands that return no data respond 0, and in the data responses the bits no rule names are 0. -/
def Obligations.EveryCommandAnswersExactlyOnce : Prop :=
  (∀ (w : Word) (s : State), ∃ t rsp, execWord w s = .next t ∧ t.pending = s.pending ++ [rsp] ∧
    (rsp.getLsbD 31 = true ↔ isLegal w = false)) ∧
  (∀ (i : Instr) (s : State),
    i ∈ [Instr.nop, .loadstart, .clrstat] ∨ (∃ d, i = .loadbyte d) ∨ (∃ a d, i = .wrbyte a d) ∨
      (∃ o v, i = .wrcfg o v) →
    ∃ t, execWord (encode i) s = .next t ∧ t.pending = s.pending ++ [0x00000000#32]) ∧
  (∀ (i : Instr) (s : State),
    (∃ a, i = .rdbyte a) ∨ (∃ x p, i = .rdstrip x p) ∨ (∃ g y, i = .rdrow8 g y) →
    ∃ t rsp, exec i s = .next t ∧ t.pending = s.pending ++ [rsp] ∧ rsp.extractLsb' 8 24 = 0) ∧
  (∀ (x : Column) (y : PixelRow) (s : State),
    ∃ t rsp, exec (.rdpix x y) s = .next t ∧ t.pending = s.pending ++ [rsp] ∧ rsp.extractLsb' 1 31 = 0) ∧
  (∀ s : State, ∃ t rsp, exec .rdcfg s = .next t ∧ t.pending = s.pending ++ [rsp] ∧ rsp.extractLsb' 2 30 = 0) ∧
  (∀ s : State, ∃ t rsp, exec .rdstat s = .next t ∧ t.pending = s.pending ++ [rsp] ∧
    rsp.extractLsb' 3 13 = 0 ∧ rsp.extractLsb' 27 5 = 0)

/-- R80: an illegal command sets ILL, answers 0x80000000 and changes nothing else, and the next command executes
normally in that state. -/
def Obligations.IllegalCommandIsPrecise : Prop :=
  ∀ (w : Word) (s : State), isLegal w = false →
    ∃ t, execWord w s = .next t ∧ t = { s with ill := true, pending := s.pending ++ [0x80000000#32] } ∧
      ∀ v, execWords [w, v] s = execWord v t

/-- What the handshakes of 30_encoding.md section 1 do to a response: it is delivered iff `rsp_valid` and `rsp_ready` are 1 at an edge, it is then the oldest
one, and one that is offered and not taken is offered again, the same, at the next edge, where that edge is no reset. -/
def Obligations.HandshakeDeliversAndHoldsResponses : Prop :=
  (∀ (e : Edge) (s : State), e.rst = false → e.accepts = false → clockEdge e s = .next (s.responseEdge e)) ∧
  (∀ (e : Edge) (s : State), s.rspValid e = true → e.rspReady = true →
    ∃ r, s.rspData = some r ∧ s.pending = r :: (s.responseEdge e).pending ∧
      s.responseEdge e = { s with
        pending := (s.responseEdge e).pending, offered := false, delivered := s.delivered ++ [r] }) ∧
  (∀ (e : Edge) (s : State), (s.rspValid e && e.rspReady) = false →
    ∃ b, s.responseEdge e = { s with offered := b }) ∧
  (∀ (e f : Edge) (s : State), s.rspValid e = true → e.rspReady = false → f.rst = false →
    ∃ t, commandEdge f (s.responseEdge e) = .next t ∧ t.rspValid f = true ∧ t.rspData = s.rspData ∧ s.rspData ≠ none)

/-- The port refines the transaction level (70_reset_and_hazards.md section 2, 30_encoding.md section 1): over any edges without reset, with any
latency, stalling and pipelining, the block ends as the accepted words leave it one after another, and the responses
delivered and pending are theirs, one each, in the order of acceptance. -/
def Obligations.PortRunIsTheRunOfAcceptedCommands : Prop :=
  ∀ s : State, NoReset s.edges →
    ∃ t u : State, core.run s.edges.length s = .next t ∧ execWords (acceptedWords s.edges) s = .next u ∧
      SameBlock u t ∧ t.edges = [] ∧ t.delivered ++ t.pending = s.delivered ++ u.pending ∧
      u.pending.length = s.pending.length + (acceptedWords s.edges).length ∧
      ∀ k c, (acceptedWords s.edges)[k]? = some c →
        ∃ v v' rsp, execWords ((acceptedWords s.edges).take k) s = .next v ∧ execWord c v = .next v' ∧
          v'.pending = v.pending ++ [rsp] ∧ u.pending[s.pending.length + k]? = some rsp

/-- R99, with log entry 2 for the host's record, which a reset edge keeps: a command offered at an edge with `rst = 1`
is not accepted, and from that edge on, whatever the later edges are (further resets among them), the run is that of the
reset state over them, behind what the host has received before: no response that was pending is ever delivered. Where
the later edges do not reset again, what is answered is exactly the commands accepted after the edge. -/
def Obligations.ResetDropsResponsesInFlight : Prop :=
  ∀ (s : State) (e : Edge) (es : List Edge), s.edges = e :: es → e.rst = true →
    e.accepts = false ∧
    (∀ k, ∃ u : State, core.run k { State.reset with edges := es } = .next u ∧
      core.run (k + 1) s = .next { u with delivered := s.delivered ++ u.delivered }) ∧
    (NoReset es → ∃ t u : State, core.run (es.length + 1) s = .next t ∧
      execWords (acceptedWords es) State.reset = .next u ∧
      SameBlock u t ∧ t.delivered ++ t.pending = s.delivered ++ u.pending)

/-- R97 (70_reset_and_hazards.md section 2), its finite bound being CMD_LATENCY. Premises, along the run: the host keeps
`rsp_ready = 1` whenever `rsp_valid = 1` (HostTakes); `rsp_valid` becomes 1 within the bound while a response waits
(PresentsWithin); and, for commands, `cmd_ready` becomes 1 within the bound where every accepted command has been answered
(ReadyWithin). Then every pending response is delivered, in order; and a command that the host offers and holds is the
next one accepted. That the bound is met is the spec's own assumption (R97, D24), kept by the model as a premise in this
form (log entry 3). -/
def Obligations.FiniteLatencyGivesProgress : Prop :=
  (∀ s : State, NoReset s.edges → HostTakes s → PresentsWithin Config.cmdLatency s →
    (Config.cmdLatency + 1) * s.pending.length ≤ s.edges.length →
    ∃ (t : State) (later : List Word),
      core.run s.edges.length s = .next t ∧ t.delivered = s.delivered ++ s.pending ++ later) ∧
  (∀ (s : State) (e : Edge) (es : List Edge), s.edges = e :: es → NoReset s.edges → HostTakes s →
    PresentsWithin Config.cmdLatency s → ReadyWithin Config.cmdLatency s → HostHolds s.edges → e.cmdValid = true →
    (Config.cmdLatency + 1) * s.pending.length + Config.cmdLatency < s.edges.length →
    ∃ rest, acceptedWords s.edges = e.cmdData :: rest)

/-! ## Reset and the invariant -/

/-- R92: at an edge with `rst = 1`, from any state whatever (the unspecified one after power-on included), every element
of the state takes its reset value. That no response is then pending or offered is R93 and R99, and that the host's record
and its later edges stay is the model's choice (log entry 2). -/
def Obligations.ResetEdgeGivesTheResetState : Prop :=
  ∀ (s : State) (e : Edge) (es : List Edge), s.edges = e :: es → e.rst = true →
    ∃ t, step s = .next t ∧ (∀ a, t.fb.read a = 0x00) ∧ t.invert = false ∧ t.bitOrder = .lsbFirst ∧ t.wptr.toNat = 0 ∧
      t.ill = false ∧ t.trunc = false ∧ t.pending = [] ∧ t.offered = false ∧ t.edges = es ∧ t.delivered = s.delivered

/-- R26: the reset value of every element of the state, of the computed FULL and of the reserved bits. -/
def Obligations.ResetStateHoldsTheResetValues : Prop :=
  (∀ a, State.reset.fb.read a = 0x00) ∧ State.reset.invert = false ∧ State.reset.bitOrder = .lsbFirst ∧
  State.reset.wptr.toNat = 0 ∧ State.reset.ill = false ∧ State.reset.trunc = false ∧ State.reset.full = false ∧
  State.reset.cfgWord = 0 ∧ State.reset.statusWord = 0

/-- The invariant holds at reset. -/
def Obligations.ResetStateMeetsTheInvariant : Prop := Inv State.reset

/-- Every step keeps the invariant: FB canonical and within its 1024 cells, WPTR ≤ 1024, TRUNC only while FB is full, and
`rsp_valid` raised only while a response waits. -/
def Obligations.EveryStepKeepsTheInvariant : Prop :=
  ∀ s : State, Inv s → ∃ t, step s = .next t ∧ Inv t

/-! ## The buffer commands -/

/-- R58, LOADSTART. -/
def Obligations.LoadstartClearsTheBuffer : Prop :=
  decode 0x10000000 = .ok .loadstart ∧ ReservedBitsAreIllegal 0x1 0x0FFFFFFF ∧
  (∀ s : State, ∃ t, exec .loadstart s = .next t ∧ (∀ a, t.fb.read a = 0x00) ∧ t.full = false ∧
    t = { s with fb := t.fb, wptr := 0, trunc := false, pending := s.pending ++ [0x00000000#32] }) ∧
  (∀ s : State, SameBlock State.reset s → ∃ t, exec .loadstart s = .next t ∧ SameBlock s t)

/-- R59, LOADBYTE: the byte lands at WPTR where WPTR < 1024, and is dropped with TRUNC set at WPTR = 1024. -/
def Obligations.LoadbyteAppendsOrDrops : Prop :=
  (∀ d : Byte, decode (0x20000000 ||| d.setWidth 32) = .ok (.loadbyte d)) ∧
  ReservedBitsAreIllegal 0x2 0x0FFFFF00 ∧
  (∀ (d : Byte) (s : State), s.wptr.toNat < 1024 →
    ∃ t, exec (.loadbyte d) s = .next t ∧
      (∀ a, t.fb.read a = if a = s.wptr.toNat then d else s.fb.read a) ∧
      t.wptr.toNat = s.wptr.toNat + 1 ∧ (t.full = true ↔ s.wptr.toNat = 1023) ∧
      t = { s with fb := t.fb, wptr := t.wptr, pending := s.pending ++ [0x00000000#32] }) ∧
  (∀ (d : Byte) (s : State), s.wptr.toNat = 1024 →
    exec (.loadbyte d) s = .next { s with trunc := true, pending := s.pending ++ [0x00000000#32] })

/-- R60, WRBYTE: one byte at an explicit address; WPTR and the flags stay. -/
def Obligations.WrbyteWritesOneByte : Prop :=
  (∀ (a : FbAddr) (d : Byte), decode (0x30000000 ||| a.setWidth 32 <<< 16 ||| d.setWidth 32) = .ok (.wrbyte a d)) ∧
  ReservedBitsAreIllegal 0x3 0x0C00FF00 ∧
  (∀ (a : FbAddr) (d : Byte) (s : State), ∃ t, exec (.wrbyte a d) s = .next t ∧
    (∀ b, t.fb.read b = if b = a.toNat then d else s.fb.read b) ∧
    t = { s with fb := t.fb, pending := s.pending ++ [0x00000000#32] })

/-- R61, RDBYTE: the raw byte, whatever CFG holds, and no state changes. -/
def Obligations.RdbyteReturnsTheRawByte : Prop :=
  (∀ a : FbAddr, decode (0x40000000 ||| a.setWidth 32 <<< 16) = .ok (.rdbyte a)) ∧
  ReservedBitsAreIllegal 0x4 0x0C00FFFF ∧
  (∀ (a : FbAddr) (s : State),
    exec (.rdbyte a) s = .next { s with pending := s.pending ++ [responseOf (s.fb.read a.toNat).toNat] }) ∧
  (∀ (a : FbAddr) (s : State) (o : BitOrder) (v : Bool),
    ∃ rsp, exec (.rdbyte a) s = .next { s with pending := s.pending ++ [rsp] } ∧
      exec (.rdbyte a) { s with bitOrder := o, invert := v } =
        .next { s with bitOrder := o, invert := v, pending := s.pending ++ [rsp] }) ∧
  (∀ a : FbAddr, exec (.rdbyte a) State.reset = .next { State.reset with pending := [0x00000000#32] })

/-- R62: a LOADSTART, then any words that hold no other write to FB, leaves FB as the source's `parse` leaves its
buffer; with no CLRSTAT among them TRUNC tells whether a byte was dropped. -/
def Obligations.LoadStreamEqualsParse : Prop :=
  ∀ (s : State) (ws : List Word) (bs : List Byte),
    (∀ i ∈ commandsOf ws, i ≠ .loadstart ∧ ∀ a d, i ≠ .wrbyte a d) → bs = (commandsOf ws).filterMap loadedByte →
    ∃ t, execWords (encode .loadstart :: ws) s = .next t ∧
      (∀ k b, k < 1024 → bs[k]? = some b → t.fb.read k = b) ∧
      (∀ k, min bs.length 1024 ≤ k → k ≤ 1023 → t.fb.read k = 0x00) ∧
      (List.range 1024).map t.fb.read = parsedBuffer bs ∧
      t.wptr.toNat = min bs.length 1024 ∧
      (Instr.clrstat ∉ commandsOf ws → (t.trunc = true ↔ 1024 < bs.length))

/-- LOADSTART's clearing is the 1024 one-byte writes of 0 of 20_memory.md section 4, done in one step. -/
def Obligations.LoadstartIsItsByteWrites : Prop :=
  ∀ s : State, Inv s →
    ∃ t, exec .loadstart s = .next t ∧ t.fb = (List.range 1024).foldl (fun m a => m.write a 0x00) s.fb

/-- A host that reads addresses 0..1023 in ascending order receives the bytes of FB in that order, and changes nothing
(20_memory.md section 3). -/
def Obligations.AscendingReadsDumpTheBuffer : Prop :=
  ∀ s : State, execWords ((List.range 1024).map fun k => encode (.rdbyte (BitVec.ofNat 10 k))) s =
    .next { s with pending := s.pending ++ (List.range 1024).map fun k => responseOf (s.fb.read k).toNat }

/-! ## The decode commands -/

/-- R31 and R32: address `p*128 + x` holds the strip at column `x` of page `p`, the page and column of an address are its
quotient and remainder by 128, and the two are inverse; the strip's rows are `8p .. 8p+7`. -/
def Obligations.PageLayoutOfAddresses : Prop :=
  (∀ (p : Page) (x : Column), (stripAddr p x).toNat = p.toNat * 128 + x.toNat ∧
    pageOfAddr (stripAddr p x) = p ∧ columnOfAddr (stripAddr p x) = x) ∧
  (∀ a : FbAddr, (pageOfAddr a).toNat = a.toNat / 128 ∧ (columnOfAddr a).toNat = a.toNat % 128 ∧
    stripAddr (pageOfAddr a) (columnOfAddr a) = a) ∧
  (∀ (p : Page) (r : BitVec 3), (rowOfPage p r).toNat = p.toNat * 8 + r.toNat ∧
    pageOfRow (rowOfPage p r) = p ∧ rowInPage (rowOfPage p r) = r)

/-- R63: the bit of row `r` is `r` under LSB_FIRST and `7 - r` under MSB_FIRST, and the index is its own inverse. -/
def Obligations.BitIndexPerBitOrder : Prop :=
  ∀ r : BitVec 3, (bitIndex .lsbFirst r).toNat = r.toNat ∧ (bitIndex .msbFirst r).toNat = 7 - r.toNat ∧
    ∀ o, bitIndex o (bitIndex o r) = r

/-- R64 and R65: the decoded pixel is the selected bit of the selected byte, defined for every pixel and every state, and
the displayed pixel is that XOR INVERT. -/
def Obligations.PixelIsTheSelectedBit : Prop :=
  ∀ (s : State) (x : Column) (y : PixelRow),
    s.decodedPixel x y = (s.fb.read (y.toNat / 8 * 128 + x.toNat)).getLsbD
      (if s.bitOrder = .lsbFirst then y.toNat % 8 else 7 - y.toNat % 8) ∧
    s.displayedPixel x y = (s.decodedPixel x y ^^ s.invert) ∧ s.displayedPixel x y = s.pixelAt x.toNat y.toNat

/-- R67, RDPIX. -/
def Obligations.RdpixReturnsOnePixel : Prop :=
  (∀ (x : Column) (y : PixelRow), decode (0x50000000 ||| y.setWidth 32 <<< 8 ||| x.setWidth 32) = .ok (.rdpix x y)) ∧
  ReservedBitsAreIllegal 0x5 0x0FFFC080 ∧
  (∀ (x : Column) (y : PixelRow) (s : State), exec (.rdpix x y) s =
    .next { s with pending := s.pending ++ [responseOf (if s.pixelAt x.toNat y.toNat then 1 else 0)] })

/-- R68, RDSTRIP: bit `i` is row `page*8+i`, in the loop's form and in the closed form. -/
def Obligations.RdstripReturnsAColumnStrip : Prop :=
  (∀ (x : Column) (p : Page), decode (0x60000000 ||| p.setWidth 32 <<< 8 ||| x.setWidth 32) = .ok (.rdstrip x p)) ∧
  ReservedBitsAreIllegal 0x6 0x0FFFF880 ∧
  (∀ (v : Byte) (i : Nat), i < 8 → (bitrev8 v).getLsbD i = v.getLsbD (7 - i)) ∧
  (∀ (x : Column) (p : Page) (s : State), ∃ r : Byte,
    exec (.rdstrip x p) s = .next { s with pending := s.pending ++ [responseOf r.toNat] } ∧
    (∀ i, i < 8 → r.getLsbD i = s.pixelAt x.toNat (p.toNat * 8 + i)) ∧
    r = (if s.bitOrder = .lsbFirst then s.fb.read (p.toNat * 128 + x.toNat)
      else bitrev8 (s.fb.read (p.toNat * 128 + x.toNat))) ^^^ (if s.invert then 0xFF else 0x00))

/-- R69, RDROW8: bit `i` is column `8g+i`. -/
def Obligations.Rdrow8ReturnsARowGroup : Prop :=
  (∀ (g : BitVec 4) (y : PixelRow), decode (0x70000000 ||| y.setWidth 32 <<< 8 ||| g.setWidth 32) = .ok (.rdrow8 g y)) ∧
  ReservedBitsAreIllegal 0x7 0x0FFFC0F0 ∧
  (∀ (g : BitVec 4) (y : PixelRow) (s : State), ∃ r : Byte,
    exec (.rdrow8 g y) s = .next { s with pending := s.pending ++ [responseOf r.toNat] } ∧
    ∀ i, i < 8 → r.getLsbD i = s.pixelAt (8 * g.toNat + i) y.toNat) ∧
  (∀ s : State, ∃ t, execWords ((List.range 1024).map fun k =>
      encode (.rdrow8 (BitVec.ofNat 4 (k % 16)) (BitVec.ofNat 6 (k / 16)))) s = .next t ∧
    t.pending.length = s.pending.length + 1024 ∧
    ∀ x y, x < 128 → y < 64 → ∃ rsp, t.pending[s.pending.length + (16 * y + x / 8)]? = some rsp ∧
      rsp.getLsbD (x % 8) = s.pixelAt x y)

/-- R70: for a fixed bit order decoding is a bijection: of bits of FB with pixels, with the inverse the rule states, and
of buffers with grids; and the two orders' strips are each other's reversal. -/
def Obligations.DecodeIsABijection : Prop :=
  (∀ o, Function.Bijective fun q : Column × PixelRow =>
    (stripAddr (pageOfRow q.2) q.1, bitIndex o (rowInPage q.2))) ∧
  (∀ (m : Memory) (o : BitOrder) (p : Page) (x : Column) (k : BitVec 3),
    byteBit (m.read (p.toNat * 128 + x.toNat)) k = m.pixel o x (rowOfPage p (bitIndex o k))) ∧
  (∀ (o : BitOrder) (grid : Column → PixelRow → Bool),
    ∃! m : Memory, m.wf = true ∧ ∀ x y, m.pixel o x y = grid x y) ∧
  (∀ (s : State) (x : Column) (p : Page), s.invert = false →
    { s with bitOrder := .msbFirst }.stripByte x p = bitrev8 ({ s with bitOrder := .lsbFirst }.stripByte x p))

/-- R71: inversion negates every pixel and is an involution through WRCFG; the 8-pixel reads are negated as bytes; and
for colours that a swap exchanges, inverting before colouring is swapping after it. -/
def Obligations.InversionNegatesEveryPixel : Prop :=
  (∀ (s : State) (x : Column) (y : PixelRow),
    { s with invert := true }.displayedPixel x y = !({ s with invert := false }.displayedPixel x y)) ∧
  (∀ (s : State) (x : Column) (y : PixelRow), s.invert = false →
    ∃ t u, exec (.wrcfg s.bitOrder true) s = .next t ∧ exec (.wrcfg s.bitOrder false) t = .next u ∧
      t.displayedPixel x y = !(s.displayedPixel x y) ∧ u.displayedPixel x y = s.displayedPixel x y) ∧
  (∀ (s : State) (x : Column) (p : Page),
    { s with invert := true }.stripByte x p = { s with invert := false }.stripByte x p ^^^ 0xFF) ∧
  (∀ (s : State) (g : BitVec 4) (y : PixelRow),
    { s with invert := true }.rowByte g y = { s with invert := false }.rowByte g y ^^^ 0xFF) ∧
  (∀ (colour : Bool → Nat) (swap : Nat → Nat), swap (colour true) = colour false → swap (colour false) = colour true →
    ∀ (s : State) (x : Column) (y : PixelRow),
      colour ({ s with invert := true }.displayedPixel x y) =
        swap (colour ({ s with invert := false }.displayedPixel x y)))

/-- R72: two decode commands with the same word, from states with equal FB and CFG, give equal responses. -/
def Obligations.DecodeCommandsAreDeterministic : Prop :=
  ∀ (i : Instr) (w : Word) (s t : State),
    decode w = .ok i → (∃ x y, i = .rdpix x y) ∨ (∃ x p, i = .rdstrip x p) ∨ (∃ g y, i = .rdrow8 g y) →
    t.fb = s.fb → t.invert = s.invert → t.bitOrder = s.bitOrder →
    ∃ rsp, execWord w s = .next { s with pending := s.pending ++ [rsp] } ∧
      execWord w t = .next { t with pending := t.pending ++ [rsp] }

/-! ## The control and status commands -/

/-- R73, NOP. -/
def Obligations.NopOnlyAnswers : Prop :=
  decode 0x00000000 = .ok .nop ∧ ReservedBitsAreIllegal 0x0 0x0FFFFFFF ∧
  ∀ s : State, exec .nop s = .next { s with pending := s.pending ++ [0x00000000#32] }

/-- R74, WRCFG: both fields, and nothing else. -/
def Obligations.WrcfgWritesBothFields : Prop :=
  (∀ order inv : Bool, decode (0x80000000 ||| (BitVec.ofBool order).setWidth 32 <<< 1 ||| (BitVec.ofBool inv).setWidth 32) =
    .ok (.wrcfg (if order then .msbFirst else .lsbFirst) inv)) ∧
  ReservedBitsAreIllegal 0x8 0x0FFFFFFC ∧
  ∀ (o : BitOrder) (v : Bool) (s : State), exec (.wrcfg o v) s =
    .next { s with bitOrder := o, invert := v, pending := s.pending ++ [0x00000000#32] }

/-- R75, RDCFG: bit 1 is BIT_ORDER, bit 0 is INVERT, every other bit is 0. -/
def Obligations.RdcfgReturnsTheConfiguration : Prop :=
  decode 0x90000000 = .ok .rdcfg ∧ ReservedBitsAreIllegal 0x9 0x0FFFFFFF ∧
  ∀ s : State, exec .rdcfg s = .next { s with pending := s.pending ++
    [responseOf ((if s.bitOrder = .msbFirst then 2 else 0) + (if s.invert then 1 else 0))] }

/-- R76, RDSTAT: where each field of STATUS stands, and that every other bit of the response is 0. -/
def Obligations.RdstatReturnsTheStatusWord : Prop :=
  decode 0xA0000000 = .ok .rdstat ∧ ReservedBitsAreIllegal 0xA 0x0FFFFFFF ∧
  ∀ s : State, ∃ rsp : Word, exec .rdstat s = .next { s with pending := s.pending ++ [rsp] } ∧
    rsp.extractLsb' 16 11 = s.wptr ∧ (rsp.getLsbD 2 = true ↔ s.wptr.toNat = 1024) ∧ rsp.getLsbD 1 = s.trunc ∧
    rsp.getLsbD 0 = s.ill ∧ rsp.extractLsb' 3 13 = 0 ∧ rsp.extractLsb' 27 5 = 0

/-- R77, CLRSTAT: ILL and TRUNC are cleared, and WPTR, FULL, FB and CFG stay. -/
def Obligations.ClrstatClearsTheStickyFlags : Prop :=
  decode 0xB0000000 = .ok .clrstat ∧ ReservedBitsAreIllegal 0xB 0x0FFFFFFF ∧
  ∀ s : State, ∃ t, exec .clrstat s = .next t ∧ t.full = s.full ∧
    t = { s with ill := false, trunc := false, pending := s.pending ++ [0x00000000#32] }

/-- R23: ILL is 1 iff an illegal command has been executed since the last reset or CLRSTAT; reading STATUS does not clear
it. -/
def Obligations.IllRecordsIllegalCommands : Prop :=
  (∀ (s : State) (ws : List Word), (∀ w ∈ ws, decode w ≠ .ok .clrstat) →
    ∃ t, execWords (encode .clrstat :: ws) s = .next t ∧ (t.ill = true ↔ ∃ w ∈ ws, isLegal w = false)) ∧
  (∀ (s : State) (ws : List Word), (∀ w ∈ ws, decode w ≠ .ok .clrstat) →
    ∃ t, execWords ws s.applyReset = .next t ∧ (t.ill = true ↔ ∃ w ∈ ws, isLegal w = false)) ∧
  (∀ s : State, ∃ t, exec .rdstat s = .next t ∧ t.ill = s.ill)

/-- R24: TRUNC is 1 iff a LOADBYTE has been dropped at WPTR = 1024 since the last reset, LOADSTART or CLRSTAT, and FB is
the same whether or not it is set. -/
def Obligations.TruncRecordsDroppedBytes : Prop :=
  (∀ (s u : State) (ws : List Word), s.wptr.toNat ≤ 1024 →
    u = s.applyReset ∨ exec .loadstart s = .next u ∨ exec .clrstat s = .next u →
    (∀ w ∈ ws, decode w ≠ .ok .loadstart ∧ decode w ≠ .ok .clrstat) →
    ∃ t, execWords ws u = .next t ∧
      (t.trunc = true ↔ ∃ before w after v d, ws = before ++ w :: after ∧ decode w = .ok (.loadbyte d) ∧
        execWords before u = .next v ∧ v.wptr.toNat = 1024)) ∧
  (∀ (s : State) (b : Bool) (ws : List Word), ∃ t t', execWords ws s = .next t ∧
    execWords ws { s with trunc := b } = .next t' ∧ t'.fb = t.fb)

/-- R25: FULL is 1 iff WPTR = 1024; no command's behaviour depends on ILL or TRUNC, and only RDSTAT returns them; ILL is
written by every illegal command, and TRUNC by LOADSTART, by a dropped LOADBYTE and by CLRSTAT. -/
def Obligations.FlagsSteerNothing : Prop :=
  (∀ s : State, s.full = true ↔ s.wptr.toNat = 1024) ∧
  (∀ (w : Word) (s : State) (a b : Bool), ∃ t t', execWord w s = .next t ∧
    execWord w { s with ill := a, trunc := b } = .next t' ∧ t'.fb = t.fb ∧ t'.invert = t.invert ∧
    t'.bitOrder = t.bitOrder ∧ t'.wptr = t.wptr ∧ (decode w ≠ .ok .rdstat → t'.pending = t.pending)) ∧
  (∀ (w : Word) (s : State), isLegal w = false → ∃ t, execWord w s = .next t ∧ t.ill = true) ∧
  (∀ (w : Word) (s : State), ∃ t, execWord w s = .next t ∧
    (t.trunc ≠ s.trunc → decode w = .ok .loadstart ∨ decode w = .ok .clrstat ∨
      ((∃ d, decode w = .ok (.loadbyte d)) ∧ 1024 ≤ s.wptr.toNat)))

/-- Who writes what (10_state.md sections 2 to 4): of all words, only LOADSTART, LOADBYTE and WRBYTE change FB, only
WRCFG changes CFG, only LOADSTART and LOADBYTE change WPTR, and no word reaches past the port's queue of responses. -/
def Obligations.OnlyTheNamedCommandsWriteEachElement : Prop :=
  ∀ (w : Word) (s : State), ∃ t, execWord w s = .next t ∧ SamePort s t ∧
    ((∃ a, t.fb.read a ≠ s.fb.read a) →
      decode w = .ok .loadstart ∨ (∃ d, decode w = .ok (.loadbyte d)) ∨ ∃ a d, decode w = .ok (.wrbyte a d)) ∧
    (t.invert ≠ s.invert ∨ t.bitOrder ≠ s.bitOrder → ∃ o v, decode w = .ok (.wrcfg o v)) ∧
    (t.wptr ≠ s.wptr → decode w = .ok .loadstart ∨ ∃ d, decode w = .ok (.loadbyte d)) ∧
    (t.ill ≠ s.ill → isLegal w = false ∨ decode w = .ok .clrstat)

/-- Every bit of the state can be read back (10_state.md section 7): two states that answer RDBYTE, RDCFG and RDSTAT alike
hold the same FB, CFG, WPTR, ILL and TRUNC. -/
def Obligations.EveryStateBitCanBeReadBack : Prop :=
  ∀ s t : State, Inv s → Inv t →
    (∀ i : Instr, (∃ a, i = .rdbyte a) ∨ i = .rdcfg ∨ i = .rdstat →
      ∃ u v rsp, exec i s = .next u ∧ exec i t = .next v ∧ u.pending = s.pending ++ [rsp] ∧
        v.pending = t.pending ++ [rsp]) →
    SameBlock s t

/-! ## Ordering -/

/-- The reading commands change no state and give the same response when repeated; two identical WRBYTE or WRCFG leave
the block as one does; a LOADBYTE that is not dropped moves WPTR every time (20_memory.md section 4). -/
def Obligations.ReadsAreSilentAndWritesIdempotent : Prop :=
  (∀ (i : Instr) (s : State),
    i ∈ [Instr.rdcfg, .rdstat] ∨ (∃ a, i = .rdbyte a) ∨ (∃ x y, i = .rdpix x y) ∨ (∃ x p, i = .rdstrip x p) ∨
      (∃ g y, i = .rdrow8 g y) →
    ∃ t u rsp, exec i s = .next t ∧ exec i t = .next u ∧ SameBlock s t ∧ SameBlock t u ∧
      t.pending = s.pending ++ [rsp] ∧ u.pending = s.pending ++ [rsp, rsp]) ∧
  (∀ (i : Instr) (s : State), (∃ a d, i = .wrbyte a d) ∨ (∃ o v, i = .wrcfg o v) →
    ∃ t u, exec i s = .next t ∧ exec i t = .next u ∧ t.invert = u.invert ∧ t.bitOrder = u.bitOrder ∧ t.wptr = u.wptr ∧
      t.ill = u.ill ∧ t.trunc = u.trunc ∧ ∀ a, u.fb.read a = t.fb.read a) ∧
  (∀ (d : Byte) (s : State), s.wptr.toNat < 1024 →
    ∃ t, exec (.loadbyte d) s = .next t ∧ t.wptr.toNat = s.wptr.toNat + 1)

/-- What a program may rely on (20_memory.md section 5): after any sequence of words, RDBYTE returns the last write to its
address accepted before it, and every pixel that RDPIX, RDSTRIP or RDROW8 reads is of the byte so written and of the
configuration of the last WRCFG before it. -/
def Obligations.ReadsSeeTheLastWritesBeforeThem : Prop :=
  (∀ (s : State) (ws : List Word) (a : FbAddr), ∃ t p,
    execWords (ws ++ [encode (.rdbyte a)]) s = .next t ∧
    t.pending = p ++ [responseOf (cellAfter a.toNat (commandsOf ws) (s.wptr.toNat, s.fb.read a.toNat)).2.toNat]) ∧
  (∀ (s : State) (ws : List Word) (x : Column) (y : PixelRow), ∃ t p,
    execWords (ws ++ [encode (.rdpix x y)]) s = .next t ∧
    t.pending = p ++ [responseOf (if s.pixelAfter (commandsOf ws) x.toNat y.toNat then 1 else 0)]) ∧
  (∀ (s : State) (ws : List Word) (x : Column) (q : Page), ∃ (t : State) (p : List Word) (r : Byte),
    execWords (ws ++ [encode (.rdstrip x q)]) s = .next t ∧ t.pending = p ++ [responseOf r.toNat] ∧
    ∀ i, i < 8 → r.getLsbD i = s.pixelAfter (commandsOf ws) x.toNat (q.toNat * 8 + i)) ∧
  (∀ (s : State) (ws : List Word) (g : BitVec 4) (y : PixelRow), ∃ (t : State) (p : List Word) (r : Byte),
    execWords (ws ++ [encode (.rdrow8 g y)]) s = .next t ∧ t.pending = p ++ [responseOf r.toNat] ∧
    ∀ i, i < 8 → r.getLsbD i = s.pixelAfter (commandsOf ws) (8 * g.toNat + i) y.toNat)

/-- Loading FB and setting CFG may be done in either order (70_reset_and_hazards.md section 1). -/
def Obligations.LoadingAndConfiguringCommute : Prop :=
  ∀ (i : Instr) (o : BitOrder) (v : Bool) (s : State),
    i = .loadstart ∨ (∃ d, i = .loadbyte d) ∨ (∃ a d, i = .wrbyte a d) →
    ∃ t, execWords [encode i, encode (.wrcfg o v)] s = .next t ∧ execWords [encode (.wrcfg o v), encode i] s = .next t

/-! ## Reset at the port, and a load pointer out of its range -/

/-- R93: at every edge with `rst = 1`, in any state, reset takes effect, `cmd_ready` and `rsp_valid` are 0 and no command
is accepted; one such edge is enough, and whatever edges without reset and without an acceptance follow it, the command
that is accepted next sees the reset state. -/
def Obligations.ResetEdgeSilencesThePort : Prop :=
  ∀ (s : State) (e : Edge) (es : List Edge), s.edges = e :: es → e.rst = true →
    s.nextCmdReady = false ∧ s.nextRspValid = false ∧ e.accepts = false ∧
    (∃ t, step s = .next t ∧ SameBlock State.reset t) ∧
    ∀ before after, es = before ++ after → NoReset before → acceptedWords before = [] →
      ∃ t, core.run (before.length + 1) s = .next t ∧ SameBlock State.reset t ∧ t.edges = after

/-- A LOADBYTE at a WPTR above 1024, which no run reaches (10_state.md section 4), drops its byte as at 1024. The spec says
nothing of these states: the model's choice, log entry 9. -/
def Obligations.LoadbyteBeyondTheRangeDropsToo : Prop :=
  ∀ (d : Byte) (s : State), 1024 < s.wptr.toNat →
    exec (.loadbyte d) s = .next { s with trunc := true, pending := s.pending ++ [0x00000000#32] }
end

