-- ==== Sys2Proof/Laws/Assembler.lean ====
section
/-! SUPPORT. The range checks of the assembler as inequalities, and what it answers on a statement. -/

namespace Sys2Proof

@[simp] theorem dataInRange_iff (n : Nat) : dataInRange n = true ↔ n < 256 := by
  simp only [dataInRange, decide_eq_true_eq]

@[simp] theorem addrInRange_iff (n : Nat) : addrInRange n = true ↔ n < 1024 := by
  simp only [addrInRange, decide_eq_true_eq]; rfl

@[simp] theorem columnInRange_iff (n : Nat) : columnInRange n = true ↔ n < 128 := by
  simp only [columnInRange, decide_eq_true_eq]; rfl

@[simp] theorem rowInRange_iff (n : Nat) : rowInRange n = true ↔ n < 64 := by
  simp only [rowInRange, decide_eq_true_eq]; rfl

@[simp] theorem pageInRange_iff (n : Nat) : pageInRange n = true ↔ n < 8 := by
  simp only [pageInRange, decide_eq_true_eq]; rfl

@[simp] theorem groupInRange_iff (n : Nat) : groupInRange n = true ↔ n < 16 := by
  simp only [groupInRange, decide_eq_true_eq]

@[simp] theorem bitInRange_iff (n : Nat) : bitInRange n = true ↔ n < 2 := by
  simp only [bitInRange, decide_eq_true_eq]

@[simp] theorem wordInRange_iff (n : Nat) : wordInRange n = true ↔ n < 2 ^ 32 := by
  simp only [wordInRange, decide_eq_true_eq]

namespace Machine

theorem assemble_of_wellFormed {st : Stmt} (h : st.wellFormed = true) : assemble st = .ok (stmtWords st) := by
  simp [assemble, h]

/-- The assembler answers an error exactly where an operand is out of range (R56). -/
theorem assemble_error_iff (st : Stmt) : assemble st = .error .operandOutOfRange ↔ ¬ st.wellFormed = true := by
  unfold assemble
  split <;> simp_all

end Machine

end Sys2Proof
end

