-- ==== Sys2Proof/Laws/State.lean ====
section
/-! SUPPORT. What each update of the state does to each field, one lemma per field per update, so that no proof unfolds a
record update. -/

namespace Sys2Proof.Machine

/-! `fbWrite` -/

@[simp] theorem State.fbWrite_fb (s : State) (a : FbAddr) (v : Byte) : (s.fbWrite a v).fb = s.fb.write a.toNat v := rfl
@[simp] theorem State.fbWrite_invert (s : State) (a : FbAddr) (v : Byte) : (s.fbWrite a v).invert = s.invert := rfl
@[simp] theorem State.fbWrite_bitOrder (s : State) (a : FbAddr) (v : Byte) : (s.fbWrite a v).bitOrder = s.bitOrder := rfl
@[simp] theorem State.fbWrite_wptr (s : State) (a : FbAddr) (v : Byte) : (s.fbWrite a v).wptr = s.wptr := rfl
@[simp] theorem State.fbWrite_ill (s : State) (a : FbAddr) (v : Byte) : (s.fbWrite a v).ill = s.ill := rfl
@[simp] theorem State.fbWrite_trunc (s : State) (a : FbAddr) (v : Byte) : (s.fbWrite a v).trunc = s.trunc := rfl
@[simp] theorem State.fbWrite_edges (s : State) (a : FbAddr) (v : Byte) : (s.fbWrite a v).edges = s.edges := rfl
@[simp] theorem State.fbWrite_pending (s : State) (a : FbAddr) (v : Byte) : (s.fbWrite a v).pending = s.pending := rfl
@[simp] theorem State.fbWrite_offered (s : State) (a : FbAddr) (v : Byte) : (s.fbWrite a v).offered = s.offered := rfl
@[simp] theorem State.fbWrite_delivered (s : State) (a : FbAddr) (v : Byte) : (s.fbWrite a v).delivered = s.delivered := rfl

/-! `fbClear` -/

@[simp] theorem State.fbClear_fb (s : State) : s.fbClear.fb = Memory.cleared := rfl
@[simp] theorem State.fbClear_invert (s : State) : s.fbClear.invert = s.invert := rfl
@[simp] theorem State.fbClear_bitOrder (s : State) : s.fbClear.bitOrder = s.bitOrder := rfl
@[simp] theorem State.fbClear_wptr (s : State) : s.fbClear.wptr = s.wptr := rfl
@[simp] theorem State.fbClear_ill (s : State) : s.fbClear.ill = s.ill := rfl
@[simp] theorem State.fbClear_trunc (s : State) : s.fbClear.trunc = s.trunc := rfl
@[simp] theorem State.fbClear_edges (s : State) : s.fbClear.edges = s.edges := rfl
@[simp] theorem State.fbClear_pending (s : State) : s.fbClear.pending = s.pending := rfl
@[simp] theorem State.fbClear_offered (s : State) : s.fbClear.offered = s.offered := rfl
@[simp] theorem State.fbClear_delivered (s : State) : s.fbClear.delivered = s.delivered := rfl

/-! `respond` -/

@[simp] theorem State.respond_fb (s : State) (v : Word) : (s.respond v).fb = s.fb := rfl
@[simp] theorem State.respond_invert (s : State) (v : Word) : (s.respond v).invert = s.invert := rfl
@[simp] theorem State.respond_bitOrder (s : State) (v : Word) : (s.respond v).bitOrder = s.bitOrder := rfl
@[simp] theorem State.respond_wptr (s : State) (v : Word) : (s.respond v).wptr = s.wptr := rfl
@[simp] theorem State.respond_ill (s : State) (v : Word) : (s.respond v).ill = s.ill := rfl
@[simp] theorem State.respond_trunc (s : State) (v : Word) : (s.respond v).trunc = s.trunc := rfl
@[simp] theorem State.respond_edges (s : State) (v : Word) : (s.respond v).edges = s.edges := rfl
@[simp] theorem State.respond_pending (s : State) (v : Word) : (s.respond v).pending = s.pending ++ [v] := rfl
@[simp] theorem State.respond_offered (s : State) (v : Word) : (s.respond v).offered = s.offered := rfl
@[simp] theorem State.respond_delivered (s : State) (v : Word) : (s.respond v).delivered = s.delivered := rfl

/-! `appendByte` -/

@[simp] theorem State.appendByte_fb (s : State) (d : Byte) : (s.appendByte d).fb = s.fb.write (s.wptr.setWidth 10).toNat d := rfl
@[simp] theorem State.appendByte_invert (s : State) (d : Byte) : (s.appendByte d).invert = s.invert := rfl
@[simp] theorem State.appendByte_bitOrder (s : State) (d : Byte) : (s.appendByte d).bitOrder = s.bitOrder := rfl
@[simp] theorem State.appendByte_wptr (s : State) (d : Byte) : (s.appendByte d).wptr = s.wptr + 1 := rfl
@[simp] theorem State.appendByte_ill (s : State) (d : Byte) : (s.appendByte d).ill = s.ill := rfl
@[simp] theorem State.appendByte_trunc (s : State) (d : Byte) : (s.appendByte d).trunc = s.trunc := rfl
@[simp] theorem State.appendByte_edges (s : State) (d : Byte) : (s.appendByte d).edges = s.edges := rfl
@[simp] theorem State.appendByte_pending (s : State) (d : Byte) : (s.appendByte d).pending = s.pending := rfl
@[simp] theorem State.appendByte_offered (s : State) (d : Byte) : (s.appendByte d).offered = s.offered := rfl
@[simp] theorem State.appendByte_delivered (s : State) (d : Byte) : (s.appendByte d).delivered = s.delivered := rfl

/-! `clearFlags` -/

@[simp] theorem State.clearFlags_fb (s : State) : s.clearFlags.fb = s.fb := rfl
@[simp] theorem State.clearFlags_invert (s : State) : s.clearFlags.invert = s.invert := rfl
@[simp] theorem State.clearFlags_bitOrder (s : State) : s.clearFlags.bitOrder = s.bitOrder := rfl
@[simp] theorem State.clearFlags_wptr (s : State) : s.clearFlags.wptr = s.wptr := rfl
@[simp] theorem State.clearFlags_ill (s : State) : s.clearFlags.ill = false := rfl
@[simp] theorem State.clearFlags_trunc (s : State) : s.clearFlags.trunc = false := rfl
@[simp] theorem State.clearFlags_edges (s : State) : s.clearFlags.edges = s.edges := rfl
@[simp] theorem State.clearFlags_pending (s : State) : s.clearFlags.pending = s.pending := rfl
@[simp] theorem State.clearFlags_offered (s : State) : s.clearFlags.offered = s.offered := rfl
@[simp] theorem State.clearFlags_delivered (s : State) : s.clearFlags.delivered = s.delivered := rfl

/-! `applyReset` -/

@[simp] theorem State.applyReset_fb (s : State) : s.applyReset.fb = [] := rfl
@[simp] theorem State.applyReset_invert (s : State) : s.applyReset.invert = false := rfl
@[simp] theorem State.applyReset_bitOrder (s : State) : s.applyReset.bitOrder = .lsbFirst := rfl
@[simp] theorem State.applyReset_wptr (s : State) : s.applyReset.wptr = 0 := rfl
@[simp] theorem State.applyReset_ill (s : State) : s.applyReset.ill = false := rfl
@[simp] theorem State.applyReset_trunc (s : State) : s.applyReset.trunc = false := rfl
@[simp] theorem State.applyReset_edges (s : State) : s.applyReset.edges = s.edges := rfl
@[simp] theorem State.applyReset_pending (s : State) : s.applyReset.pending = [] := rfl
@[simp] theorem State.applyReset_offered (s : State) : s.applyReset.offered = false := rfl
@[simp] theorem State.applyReset_delivered (s : State) : s.applyReset.delivered = s.delivered := rfl

/-! `dropEdge` -/

@[simp] theorem State.dropEdge_fb (s : State) : s.dropEdge.fb = s.fb := rfl
@[simp] theorem State.dropEdge_invert (s : State) : s.dropEdge.invert = s.invert := rfl
@[simp] theorem State.dropEdge_bitOrder (s : State) : s.dropEdge.bitOrder = s.bitOrder := rfl
@[simp] theorem State.dropEdge_wptr (s : State) : s.dropEdge.wptr = s.wptr := rfl
@[simp] theorem State.dropEdge_ill (s : State) : s.dropEdge.ill = s.ill := rfl
@[simp] theorem State.dropEdge_trunc (s : State) : s.dropEdge.trunc = s.trunc := rfl
@[simp] theorem State.dropEdge_edges (s : State) : s.dropEdge.edges = s.edges.tail := rfl
@[simp] theorem State.dropEdge_pending (s : State) : s.dropEdge.pending = s.pending := rfl
@[simp] theorem State.dropEdge_offered (s : State) : s.dropEdge.offered = s.offered := rfl
@[simp] theorem State.dropEdge_delivered (s : State) : s.dropEdge.delivered = s.delivered := rfl

/-! `withCommand` -/

@[simp] theorem State.withCommand_fb (s : State) (w : Word) : (s.withCommand w).fb = s.fb := rfl
@[simp] theorem State.withCommand_invert (s : State) (w : Word) : (s.withCommand w).invert = s.invert := rfl
@[simp] theorem State.withCommand_bitOrder (s : State) (w : Word) : (s.withCommand w).bitOrder = s.bitOrder := rfl
@[simp] theorem State.withCommand_wptr (s : State) (w : Word) : (s.withCommand w).wptr = s.wptr := rfl
@[simp] theorem State.withCommand_ill (s : State) (w : Word) : (s.withCommand w).ill = s.ill := rfl
@[simp] theorem State.withCommand_trunc (s : State) (w : Word) : (s.withCommand w).trunc = s.trunc := rfl
@[simp] theorem State.withCommand_edges (s : State) (w : Word) : (s.withCommand w).edges = Edge.command w :: s.edges := rfl
@[simp] theorem State.withCommand_pending (s : State) (w : Word) : (s.withCommand w).pending = s.pending := rfl
@[simp] theorem State.withCommand_offered (s : State) (w : Word) : (s.withCommand w).offered = s.offered := rfl
@[simp] theorem State.withCommand_delivered (s : State) (w : Word) : (s.withCommand w).delivered = s.delivered := rfl

/-! The state at reset -/

@[simp] theorem State.reset_fb : State.reset.fb = [] := rfl
@[simp] theorem State.reset_invert : State.reset.invert = false := rfl
@[simp] theorem State.reset_bitOrder : State.reset.bitOrder = .lsbFirst := rfl
@[simp] theorem State.reset_wptr : State.reset.wptr = 0 := rfl
@[simp] theorem State.reset_ill : State.reset.ill = false := rfl
@[simp] theorem State.reset_trunc : State.reset.trunc = false := rfl
@[simp] theorem State.reset_edges : State.reset.edges = [] := rfl
@[simp] theorem State.reset_pending : State.reset.pending = [] := rfl
@[simp] theorem State.reset_offered : State.reset.offered = false := rfl
@[simp] theorem State.reset_delivered : State.reset.delivered = [] := rfl

/-! What the reads of the state depend on -/

@[simp] theorem State.fbRead_eq (s : State) (a : FbAddr) : s.fbRead a = s.fb.read a.toNat := rfl
theorem State.decodedPixel_eq (s : State) (x : Column) (y : PixelRow) : s.decodedPixel x y = s.fb.pixel s.bitOrder x y := rfl
theorem State.displayedPixel_eq (s : State) (x : Column) (y : PixelRow) :
    s.displayedPixel x y = (s.fb.pixel s.bitOrder x y ^^ s.invert) := rfl
@[simp] theorem State.dropEdge_withCommand (s : State) (w : Word) : (s.withCommand w).dropEdge = s := rfl
@[simp] theorem State.nextEdge_withCommand (s : State) (w : Word) : (s.withCommand w).nextEdge = Edge.command w := rfl

end Sys2Proof.Machine
end

