-- ==== Sys2Proof/Laws/Memory.lean ====
section
/-! SUPPORT. FB as a store: a read after a write, the canonical form and that every operation keeps it, and that two
stores in canonical form with the same bytes are the same data. -/

namespace Sys2Proof.Machine

@[simp] theorem Memory.read_nil (a : Nat) : Memory.read [] a = 0 := rfl

theorem Memory.read_cons (b : Nat) (u : Byte) (m : Memory) (a : Nat) :
    Memory.read ((b, u) :: m) a = if a = b then u else Memory.read m a := rfl

@[simp] theorem Memory.read_cleared (a : Nat) : Memory.cleared.read a = 0 := rfl

@[simp] theorem Memory.erase_nil (a : Nat) : Memory.erase [] a = [] := rfl

theorem Memory.erase_cons (b : Nat) (u : Byte) (m : Memory) (a : Nat) :
    Memory.erase ((b, u) :: m) a = if b = a then Memory.erase m a else (b, u) :: Memory.erase m a := by
  by_cases h : b = a <;> simp [Memory.erase, h]

theorem Memory.read_erase (m : Memory) (a c : Nat) : (m.erase a).read c = if c = a then 0 else m.read c := by
  induction m with
  | nil => simp
  | cons cell m ih =>
    obtain ⟨b, u⟩ := cell
    rw [Memory.erase_cons]
    by_cases h : b = a
    · subst h
      rw [if_pos rfl, ih, Memory.read_cons]
      by_cases hc : c = b <;> simp [hc]
    · rw [if_neg h, Memory.read_cons, Memory.read_cons, ih]
      by_cases hc : c = b
      · subst hc; simp [h]
      · simp [hc]

theorem Memory.read_insert {m : Memory} {a : Nat} (v : Byte) (c : Nat) (hm : ∀ u, (a, u) ∉ m) :
    (m.insert a v).read c = if c = a then v else m.read c := by
  induction m with
  | nil => simp [Memory.insert, Memory.read_cons]
  | cons cell m ih =>
    obtain ⟨b, u⟩ := cell
    have hb : a ≠ b := fun hab => hm u (by simp [hab])
    have hm' : ∀ w, (a, w) ∉ m := fun w hw => hm w (List.mem_cons_of_mem _ hw)
    unfold Memory.insert
    split
    · rw [Memory.read_cons]
    · rw [Memory.read_cons, Memory.read_cons, ih hm']
      by_cases hc : c = b
      · subst hc; simp [Ne.symm hb]
      · simp [hc]

theorem Memory.not_mem_erase (m : Memory) (a : Nat) (u : Byte) : (a, u) ∉ m.erase a := by
  simp [Memory.erase]

/-- A read after a write gives the byte written there, and every other byte is as before. -/
theorem Memory.read_write (m : Memory) (a : Nat) (v : Byte) (c : Nat) :
    (m.write a v).read c = if c = a then v else m.read c := by
  unfold Memory.write
  split
  · next h => subst h; exact Memory.read_erase m a c
  · rw [Memory.read_insert v c (Memory.not_mem_erase m a), Memory.read_erase]
    by_cases hc : c = a <;> simp [hc]

@[simp] theorem Memory.read_write_same (m : Memory) (a : Nat) (v : Byte) : (m.write a v).read a = v := by
  simp [Memory.read_write]

theorem Memory.read_write_other (m : Memory) {a c : Nat} (v : Byte) (h : c ≠ a) :
    (m.write a v).read c = m.read c := by
  simp [Memory.read_write, h]

/-! The canonical form -/

@[simp] theorem Memory.wfFrom_nil (lo : Nat) : Memory.wfFrom lo [] = true := rfl

theorem Memory.wfFrom_cons (lo a : Nat) (v : Byte) (m : Memory) :
    Memory.wfFrom lo ((a, v) :: m) = true ↔ lo ≤ a ∧ a < 1024 ∧ v ≠ 0 ∧ Memory.wfFrom (a + 1) m = true := by
  simp only [Memory.wfFrom, Bool.and_eq_true, decide_eq_true_eq, bne_iff_ne, and_assoc]
  rfl

theorem Memory.wfFrom_mono {lo lo' : Nat} {m : Memory} (h : Memory.wfFrom lo m = true) (hl : lo' ≤ lo) :
    Memory.wfFrom lo' m = true := by
  cases m with
  | nil => rfl
  | cons cell m =>
    obtain ⟨a, v⟩ := cell
    rw [Memory.wfFrom_cons] at h ⊢
    exact ⟨hl.trans h.1, h.2⟩

theorem Memory.wfFrom_erase {lo : Nat} {m : Memory} (a : Nat) (h : Memory.wfFrom lo m = true) :
    Memory.wfFrom lo (m.erase a) = true := by
  induction m generalizing lo with
  | nil => rfl
  | cons cell m ih =>
    obtain ⟨b, u⟩ := cell
    rw [Memory.wfFrom_cons] at h
    obtain ⟨h1, h2, h3, h4⟩ := h
    rw [Memory.erase_cons]
    split
    · exact Memory.wfFrom_mono (ih h4) (by omega)
    · exact (Memory.wfFrom_cons ..).2 ⟨h1, h2, h3, ih h4⟩

theorem Memory.wfFrom_insert {lo : Nat} {m : Memory} {a : Nat} {v : Byte} (h : Memory.wfFrom lo m = true)
    (hlo : lo ≤ a) (ha : a < 1024) (hv : v ≠ 0) (hm : ∀ u, (a, u) ∉ m) : Memory.wfFrom lo (m.insert a v) = true := by
  induction m generalizing lo with
  | nil => exact (Memory.wfFrom_cons ..).2 ⟨hlo, ha, hv, rfl⟩
  | cons cell m ih =>
    obtain ⟨b, u⟩ := cell
    rw [Memory.wfFrom_cons] at h
    obtain ⟨h1, h2, h3, h4⟩ := h
    have hb : a ≠ b := fun hab => hm u (by simp [hab])
    unfold Memory.insert
    split
    · exact (Memory.wfFrom_cons ..).2 ⟨hlo, ha, hv, (Memory.wfFrom_cons ..).2 ⟨by omega, h2, h3, h4⟩⟩
    · exact (Memory.wfFrom_cons ..).2
        ⟨h1, h2, h3, ih h4 (by omega) (fun w hw => hm w (List.mem_cons_of_mem _ hw))⟩

/-- Every write of FB keeps the canonical form. -/
theorem Memory.wf_write {m : Memory} {a : Nat} (v : Byte) (h : m.wf = true) (ha : a < 1024) : (m.write a v).wf = true := by
  unfold Memory.write
  split
  · exact Memory.wfFrom_erase a h
  · next hv => exact Memory.wfFrom_insert (Memory.wfFrom_erase a h) (Nat.zero_le _) ha hv (Memory.not_mem_erase m a)

@[simp] theorem Memory.wf_cleared : Memory.cleared.wf = true := rfl

/-- FB at reset is in canonical form. -/
theorem State.reset_fb_wf : State.reset.fb.wf = true := rfl

theorem State.fbWrite_wf {s : State} (a : FbAddr) (v : Byte) (h : s.fb.wf = true) : (s.fbWrite a v).fb.wf = true :=
  Memory.wf_write v h a.isLt

theorem Memory.read_below {lo : Nat} {m : Memory} (h : Memory.wfFrom lo m = true) {a : Nat} (ha : a < lo) :
    m.read a = 0 := by
  induction m generalizing lo with
  | nil => rfl
  | cons cell m ih =>
    obtain ⟨b, u⟩ := cell
    rw [Memory.wfFrom_cons] at h
    rw [Memory.read_cons, if_neg (by omega), ih h.2.2.2 (by omega)]

theorem Memory.eq_of_read_from {lo : Nat} {m n : Memory} (hm : Memory.wfFrom lo m = true)
    (hn : Memory.wfFrom lo n = true) (h : ∀ a, m.read a = n.read a) : m = n := by
  induction m generalizing lo n with
  | nil =>
    cases n with
    | nil => rfl
    | cons cell n =>
      obtain ⟨b, u⟩ := cell
      have hb := h b
      rw [Memory.wfFrom_cons] at hn
      simp [Memory.read_cons] at hb
      exact absurd hb.symm hn.2.2.1
  | cons cell m ih =>
    obtain ⟨a, v⟩ := cell
    have hm' := (Memory.wfFrom_cons ..).1 hm
    cases n with
    | nil =>
      have ha := h a
      simp [Memory.read_cons] at ha
      exact absurd ha hm'.2.2.1
    | cons cell' n =>
      obtain ⟨b, u⟩ := cell'
      have hn' := (Memory.wfFrom_cons ..).1 hn
      have hab : a = b := by
        rcases Nat.lt_trichotomy a b with hlt | heq | hgt
        · have ha := h a
          rw [Memory.read_cons, if_pos rfl, Memory.read_cons, if_neg (by omega),
            Memory.read_below hn'.2.2.2 (by omega)] at ha
          exact absurd ha hm'.2.2.1
        · exact heq
        · have hb := h b
          rw [Memory.read_cons, if_neg (by omega), Memory.read_below hm'.2.2.2 (by omega), Memory.read_cons,
            if_pos rfl] at hb
          exact absurd hb.symm hn'.2.2.1
      subst hab
      have hv : v = u := by simpa [Memory.read_cons] using h a
      subst hv
      have : m = n := by
        refine ih hm'.2.2.2 hn'.2.2.2 fun c => ?_
        by_cases hc : c = a
        · rw [Memory.read_below hm'.2.2.2 (by omega), Memory.read_below hn'.2.2.2 (by omega)]
        · simpa [Memory.read_cons, hc] using h c
      rw [this]

/-- Equal memories are equal data. -/
theorem Memory.eq_of_read {m n : Memory} (hm : m.wf = true) (hn : n.wf = true) (h : ∀ a, m.read a = n.read a) : m = n :=
  Memory.eq_of_read_from hm hn h

/-- A cell beyond FB is never listed. -/
theorem Memory.read_beyond {lo : Nat} {m : Memory} (h : Memory.wfFrom lo m = true) {a : Nat} (ha : 1024 ≤ a) :
    m.read a = 0 := by
  induction m generalizing lo with
  | nil => rfl
  | cons cell m ih =>
    obtain ⟨b, u⟩ := cell
    rw [Memory.wfFrom_cons] at h
    rw [Memory.read_cons, if_neg (by omega), ih h.2.2.2]

end Sys2Proof.Machine
end

