-- ==== Sys2Proof/Laws/Operands.lean ====
section
/-! SUPPORT. The small facts of the operand forms: the bits of a packed byte, and the numbers that the coordinate
functions give. -/

namespace Sys2Proof.Machine

/-- Bit `i` of a packed byte is `f i` (R68, R69). -/
theorem packByte_bit (f : BitVec 3 → Bool) (i : Nat) (hi : i < 8) : (packByte f).getLsbD i = f (BitVec.ofNat 3 i) := by
  have h : BitVec.ofFin (⟨i, hi⟩ : Fin (2 ^ 3)) = BitVec.ofNat 3 i :=
    BitVec.eq_of_toNat_eq (by simpa using (Nat.mod_eq_of_lt hi).symm)
  rw [packByte, BitVec.getLsbD_ofFnLE, dif_pos hi]
  exact congrArg f h

theorem byteBit_packByte (f : BitVec 3 → Bool) (i : BitVec 3) : byteBit (packByte f) i = f i := by
  rw [byteBit, packByte_bit f i.toNat i.isLt, BitVec.ofNat_toNat, BitVec.setWidth_eq]

/-- Two bytes with the same 8 bits are equal. -/
theorem byte_ext {u v : Byte} (h : ∀ i : BitVec 3, byteBit u i = byteBit v i) : u = v := by
  apply BitVec.eq_of_getLsbD_eq
  intro i hi
  have := h (BitVec.ofNat 3 i)
  simpa [byteBit, Nat.mod_eq_of_lt hi] using this

theorem pageOfRow_toNat (y : PixelRow) : (pageOfRow y).toNat = y.toNat / 8 := by
  have := y.isLt
  simp [pageOfRow, Nat.shiftRight_eq_div_pow]
  omega

theorem rowInPage_toNat (y : PixelRow) : (rowInPage y).toNat = y.toNat % 8 := by
  simp [rowInPage]

theorem bitIndex_toNat (o : BitOrder) (r : BitVec 3) :
    (bitIndex o r).toNat = if o = .lsbFirst then r.toNat else 7 - r.toNat := by
  have := r.isLt
  cases o
  · rfl
  · simp [bitIndex, BitVec.toNat_sub]
    omega

/-- Placing a field above another one of `k` bits is multiplying by `2^k` and adding. -/
theorem or_of_disjoint (a b k : Nat) (hb : b < 2 ^ k) : a <<< k ||| b = a * 2 ^ k + b := by
  rw [← Nat.shiftLeft_add_eq_or_of_lt hb, Nat.shiftLeft_eq]

theorem columnOfGroup_toNat (g : BitVec 4) (k : BitVec 3) : (columnOfGroup g k).toNat = 8 * g.toNat + k.toNat := by
  have hg := g.isLt
  have hk := k.isLt
  have h : (columnOfGroup g k).toNat = g.toNat <<< 3 ||| k.toNat := by
    simp [columnOfGroup, Nat.shiftLeft_eq]
    rw [Nat.mod_eq_of_lt (by omega), Nat.mod_eq_of_lt (by omega)]
  rw [h, or_of_disjoint _ _ _ hk]
  omega

theorem stripAddr_toNat (p : Page) (x : Column) : (stripAddr p x).toNat = p.toNat * 128 + x.toNat := by
  have hp := p.isLt
  have hx := x.isLt
  have h : (stripAddr p x).toNat = p.toNat <<< 7 ||| x.toNat := by
    simp [stripAddr, Nat.shiftLeft_eq]
    rw [Nat.mod_eq_of_lt (by omega), Nat.mod_eq_of_lt (by omega)]
  rw [h, or_of_disjoint _ _ _ hx]
  norm_num

theorem rowOfPage_toNat (p : Page) (r : BitVec 3) : (rowOfPage p r).toNat = p.toNat * 8 + r.toNat := by
  have hp := p.isLt
  have hr := r.isLt
  have h : (rowOfPage p r).toNat = p.toNat <<< 3 ||| r.toNat := by
    simp [rowOfPage, Nat.shiftLeft_eq]
    rw [Nat.mod_eq_of_lt (by omega), Nat.mod_eq_of_lt (by omega)]
  rw [h, or_of_disjoint _ _ _ hr]
  norm_num

end Sys2Proof.Machine
end

