-- ==== Sys2Proof/Laws/Ops.lean ====
section
/-! SUPPORT. What each shared operation and each command answers, once, for the provers to cite in place of unfolding it. -/

namespace Sys2Proof.Machine

/-! The outcome of what follows a command -/

@[simp] theorem afterNext_next (f : State → State) (s : State) : afterNext f (.next s) = .next (f s) := rfl
@[simp] theorem afterNext_fault (f : State → State) (r : Fault) : afterNext f (.fault r) = .fault r := rfl
@[simp] theorem afterNext_refused (f : State → State) (r : Refusal) : afterNext f (.refused r) = .refused r := rfl

/-! IllegalCommand and the dispatch of a word -/

/-- Everything `raise IllegalCommand` does (R80). -/
theorem raiseIllegalCommand_eq (s : State) :
    raiseIllegalCommand s = .next { s with ill := true, pending := s.pending ++ [errResponse] } := rfl

theorem execWord_of_ok {w : Word} {i : Instr} (h : decode w = .ok i) (s : State) : execWord w s = exec i s := by
  simp [execWord, h]

theorem execWord_of_error {w : Word} {r : DecodeError} (h : decode w = .error r) (s : State) :
    execWord w s = raiseIllegalCommand s := by
  simp [execWord, h]

@[simp] theorem execWords_nil (s : State) : execWords [] s = .next s := rfl

theorem execWords_cons_of_next {w : Word} {s t : State} (h : execWord w s = .next t) (ws : List Word) :
    execWords (w :: ws) s = execWords ws t := by
  simp [execWords, h]

/-- A run of a joined list is the run of its parts, where the first part ends in a next state. -/
theorem execWords_append_of_next {ws : List Word} {s t : State} (h : execWords ws s = .next t) (vs : List Word) :
    execWords (ws ++ vs) s = execWords vs t := by
  induction ws generalizing s with
  | nil => cases h; rfl
  | cons w ws ih =>
    simp only [execWords, List.cons_append] at h ⊢
    split at h
    · next u hu => exact ih h
    · cases h
    · cases h

/-! The arms of exec -/

@[simp] theorem exec_nop (s : State) : exec .nop s = .next (s.respond ackResponse) := rfl
@[simp] theorem exec_loadstart (s : State) :
    exec .loadstart s = .next ({ s.fbClear with wptr := 0, trunc := false }.respond ackResponse) := rfl
@[simp] theorem exec_wrbyte (a : FbAddr) (d : Byte) (s : State) :
    exec (.wrbyte a d) s = .next ((s.fbWrite a d).respond ackResponse) := rfl
@[simp] theorem exec_rdbyte (a : FbAddr) (s : State) : exec (.rdbyte a) s = .next (s.respond (zext32 (s.fbRead a))) := rfl
@[simp] theorem exec_rdpix (x : Column) (y : PixelRow) (s : State) :
    exec (.rdpix x y) s = .next (s.respond (zext32 (BitVec.ofBool (s.displayedPixel x y)))) := rfl
@[simp] theorem exec_rdstrip (x : Column) (p : Page) (s : State) :
    exec (.rdstrip x p) s = .next (s.respond (zext32 (s.stripByte x p))) := rfl
@[simp] theorem exec_rdrow8 (g : BitVec 4) (y : PixelRow) (s : State) :
    exec (.rdrow8 g y) s = .next (s.respond (zext32 (s.rowByte g y))) := rfl
@[simp] theorem exec_wrcfg (o : BitOrder) (v : Bool) (s : State) :
    exec (.wrcfg o v) s = .next ({ s with bitOrder := o, invert := v }.respond ackResponse) := rfl
@[simp] theorem exec_rdcfg (s : State) : exec .rdcfg s = .next (s.respond s.cfgWord) := rfl
@[simp] theorem exec_rdstat (s : State) : exec .rdstat s = .next (s.respond s.statusWord) := rfl
@[simp] theorem exec_clrstat (s : State) : exec .clrstat s = .next (s.clearFlags.respond ackResponse) := rfl

theorem State.hasRoom_iff (s : State) : s.hasRoom = true ↔ s.wptr.toNat < 1024 := by
  simp only [State.hasRoom, decide_eq_true_eq]
  rfl

theorem exec_loadbyte_of_room (d : Byte) {s : State} (h : s.wptr.toNat < 1024) :
    exec (.loadbyte d) s = .next ((s.appendByte d).respond ackResponse) := by
  show execLoadbyte d s = _
  rw [execLoadbyte, if_pos (s.hasRoom_iff.2 h)]

theorem exec_loadbyte_of_full (d : Byte) {s : State} (h : 1024 ≤ s.wptr.toNat) :
    exec (.loadbyte d) s = .next ({ s with trunc := true }.respond ackResponse) := by
  show execLoadbyte d s = _
  rw [execLoadbyte, if_neg (fun hr => absurd (s.hasRoom_iff.1 hr) (by omega))]

/-- The cell that LOADBYTE writes is the one WPTR names. -/
theorem wptr_addr_toNat {s : State} (h : s.wptr.toNat < 1024) : (s.wptr.setWidth 10).toNat = s.wptr.toNat := by
  simpa using Nat.mod_eq_of_lt h

theorem wptr_succ_toNat {s : State} (h : s.wptr.toNat < 1024) : (s.wptr + 1).toNat = s.wptr.toNat + 1 := by
  rw [BitVec.toNat_add]
  exact Nat.mod_eq_of_lt (by simp; omega)

/-! The port -/

/-- The two ready and valid outputs are 0 at a reset edge (R93). -/
theorem Edge.cmdReady_of_rst {e : Edge} (h : e.rst = true) : e.cmdReady = false := by simp [Edge.cmdReady, h]
theorem State.rspValid_of_rst {e : Edge} (h : e.rst = true) (s : State) : s.rspValid e = false := by
  simp [State.rspValid, h]

/-- What `rsp_valid = 1` takes (R45, R93). -/
theorem State.rspValid_iff (s : State) (e : Edge) :
    s.rspValid e = true ↔ e.rst = false ∧ s.pending ≠ [] ∧ (s.offered = true ∨ e.willPresent = true) := by
  simp [State.rspValid, and_assoc]

/-- What acceptance takes, in the port's own signals. -/
theorem Edge.accepts_iff (e : Edge) :
    e.accepts = true ↔ e.rst = false ∧ e.cmdValid = true ∧ e.willAccept = true := by
  cases h : e.rst <;> simp [Edge.accepts, Edge.cmdReady, h]

/-- `rsp_valid` at the next edge, where the command side is known. -/
theorem State.nextRspValid_of_next {s t : State} (h : commandEdge s.nextEdge s.dropEdge = .next t) :
    s.nextRspValid = t.rspValid s.nextEdge := by
  simp [State.nextRspValid, h]

theorem State.responseEdge_idle (e : Edge) {s : State} (h : s.rspValid e = false) : s.responseEdge e = s := by
  simp [State.responseEdge, h]

/-- A response offered and not taken stays offered (R45). -/
theorem State.responseEdge_hold {e : Edge} {s : State} (h : s.rspValid e = true) (hr : e.rspReady = false) :
    s.responseEdge e = { s with offered := true } := by
  simp [State.responseEdge, h, hr]

theorem State.responseEdge_deliver {e : Edge} {s : State} (h : s.rspValid e = true) (hr : e.rspReady = true) :
    s.responseEdge e = s.deliver := by
  simp [State.responseEdge, h, hr]

theorem State.deliver_cons {s : State} {r : Word} {rs : List Word} (h : s.pending = r :: rs) :
    s.deliver = { s with pending := rs, offered := false, delivered := s.delivered ++ [r] } := by
  simp [State.deliver, h]

theorem clockEdge_reset {e : Edge} (h : e.rst = true) (s : State) : clockEdge e s = .next s.applyReset := by
  simp [clockEdge, h]

theorem clockEdge_run {e : Edge} (h : e.rst = false) (s : State) :
    clockEdge e s = afterNext (State.responseEdge e) (commandEdge e s) := by
  simp [clockEdge, h]

theorem commandEdge_accept {e : Edge} (h : e.accepts = true) (s : State) : commandEdge e s = execWord e.cmdData s := by
  simp [commandEdge, h]

theorem commandEdge_wait {e : Edge} (h : e.accepts = false) (s : State) : commandEdge e s = .next s := by
  simp [commandEdge, h]

theorem step_of_cons {s : State} {e : Edge} {es : List Edge} (h : s.edges = e :: es) :
    step s = clockEdge e { s with edges := es } := by
  simp [step, State.nextEdge, State.dropEdge, h]

end Sys2Proof.Machine
end

