-- ==== Sys2Proof/Laws/PerInstr.lean ====
section
/-! SUPPORT. Facts about each command as syntax, one lemma per constructor of Instr. The family EncodeMatchesRow says that
the word of a command is one that the row of R49 with its mnemonic matches. -/

namespace Sys2Proof.Laws.EncodeMatchesRow

/-- The word of the command is covered by its own row of the opcode map (R49, R53). -/
def Statement (i : Instr) : Prop := ∃ r ∈ opcodeTable, r.mnemonic = i.mnemonic ∧ r.covers (encode i) = true

theorem nop : Statement .nop := ⟨⟨"NOP", 0x00000000, 0xFFFFFFFF⟩, by simp [opcodeTable], rfl, rfl⟩

theorem loadstart : Statement .loadstart := ⟨⟨"LOADSTART", 0x10000000, 0xFFFFFFFF⟩, by simp [opcodeTable], rfl, rfl⟩

/-- A word built from fields below the fixed bits keeps the fixed bits: bit by bit. -/
theorem covers_of_bits {r : OpcodeRow} {w : Word}
    (h : ∀ k, k < 32 → (w.getLsbD k && r.mask.getLsbD k) = r.pattern.getLsbD k) : r.covers w = true := by
  rw [OpcodeRow.covers, beq_iff_eq]
  apply BitVec.eq_of_getLsbD_eq
  intro k hk
  rw [BitVec.getLsbD_and]
  exact h k hk

theorem loadbyte (d : Byte) : Statement (.loadbyte d) := by
  refine ⟨⟨"LOADBYTE", 0x20000000, 0xFFFFFF00⟩, by simp [opcodeTable], rfl, covers_of_bits fun k hk => ?_⟩
  interval_cases k <;> simp [encode, placed]

theorem wrbyte (a : FbAddr) (d : Byte) : Statement (.wrbyte a d) := by
  refine ⟨⟨"WRBYTE", 0x30000000, 0xFC00FF00⟩, by simp [opcodeTable], rfl, covers_of_bits fun k hk => ?_⟩
  interval_cases k <;> simp [encode, placed]

theorem rdbyte (a : FbAddr) : Statement (.rdbyte a) := by
  refine ⟨⟨"RDBYTE", 0x40000000, 0xFC00FFFF⟩, by simp [opcodeTable], rfl, covers_of_bits fun k hk => ?_⟩
  interval_cases k <;> simp [encode, placed]

theorem rdpix (x : Column) (y : PixelRow) : Statement (.rdpix x y) := by
  refine ⟨⟨"RDPIX", 0x50000000, 0xFFFFC080⟩, by simp [opcodeTable], rfl, covers_of_bits fun k hk => ?_⟩
  interval_cases k <;> simp [encode, placed]

theorem rdstrip (x : Column) (p : Page) : Statement (.rdstrip x p) := by
  refine ⟨⟨"RDSTRIP", 0x60000000, 0xFFFFF880⟩, by simp [opcodeTable], rfl, covers_of_bits fun k hk => ?_⟩
  interval_cases k <;> simp [encode, placed]

theorem rdrow8 (g : BitVec 4) (y : PixelRow) : Statement (.rdrow8 g y) := by
  refine ⟨⟨"RDROW8", 0x70000000, 0xFFFFC0F0⟩, by simp [opcodeTable], rfl, covers_of_bits fun k hk => ?_⟩
  interval_cases k <;> simp [encode, placed]

theorem wrcfg (o : BitOrder) (v : Bool) : Statement (.wrcfg o v) := by
  refine ⟨⟨"WRCFG", 0x80000000, 0xFFFFFFFC⟩, by simp [opcodeTable], rfl, ?_⟩
  cases o <;> cases v <;> rfl

theorem rdcfg : Statement .rdcfg := ⟨⟨"RDCFG", 0x90000000, 0xFFFFFFFF⟩, by simp [opcodeTable], rfl, rfl⟩

theorem rdstat : Statement .rdstat := ⟨⟨"RDSTAT", 0xA0000000, 0xFFFFFFFF⟩, by simp [opcodeTable], rfl, rfl⟩

theorem clrstat : Statement .clrstat := ⟨⟨"CLRSTAT", 0xB0000000, 0xFFFFFFFF⟩, by simp [opcodeTable], rfl, rfl⟩

end Sys2Proof.Laws.EncodeMatchesRow
end

