-- ==== Sys2Proof/Laws/Port.lean ====
section
/-! SUPPORT. The port and the run of the machine: what the response side of an edge leaves alone, and how a run takes its
first step. -/

namespace Sys2Proof.Machine

theorem SameBlock.refl (s : State) : SameBlock s s := ⟨rfl, rfl, rfl, rfl, rfl, rfl⟩

theorem SameBlock.trans {s t u : State} (h : SameBlock s t) (g : SameBlock t u) : SameBlock s u := by
  obtain ⟨h1, h2, h3, h4, h5, h6⟩ := h
  obtain ⟨g1, g2, g3, g4, g5, g6⟩ := g
  exact ⟨g1.trans h1, g2.trans h2, g3.trans h3, g4.trans h4, g5.trans h5, g6.trans h6⟩

/-- The response side of an edge changes no state of R15, takes no edge off the list, and loses and reorders no
response. -/
theorem State.responseEdge_keeps (e : Edge) (s : State) :
    SameBlock s (s.responseEdge e) ∧ (s.responseEdge e).edges = s.edges ∧
      (s.responseEdge e).delivered ++ (s.responseEdge e).pending = s.delivered ++ s.pending := by
  by_cases hv : s.rspValid e = true
  · cases hr : e.rspReady with
    | true =>
      rw [State.responseEdge_deliver hv hr]
      cases hp : s.pending with
      | nil => simp [State.deliver, hp, SameBlock]
      | cons r rs => rw [State.deliver_cons hp]; simp [SameBlock]
    | false => rw [State.responseEdge_hold hv hr]; simp [SameBlock]
  · rw [State.responseEdge_idle e (by simpa using hv)]
    simp [SameBlock]

theorem run_zero (s : State) : core.run 0 s = .next s := rfl

/-- A run's first step. -/
theorem run_succ_of_step {s t : State} (h : step s = .next t) (k : Nat) : core.run (k + 1) s = core.run k t := by
  have h' : core.step s = .next t := h
  simp only [Host.Core.run, h']

/-- A run is its first part and then its second. -/
theorem run_add_of_next {k : Nat} {s t : State} (h : core.run k s = .next t) (m : Nat) :
    core.run (k + m) s = core.run m t := by
  induction k generalizing s with
  | zero => cases h; rw [Nat.zero_add]
  | succ k ih =>
    rw [Nat.succ_add]
    simp only [Host.Core.run] at h ⊢
    split at h
    · next u hu => exact ih h
    · cases h
    · cases h

/-- No command touches the port beyond the queue of responses. -/
theorem execWord_samePort {w : Word} {s t : State} (h : execWord w s = .next t) : SamePort s t := by
  cases hd : decode w with
  | error r => rw [execWord_of_error hd] at h; cases h; exact ⟨rfl, rfl, rfl⟩
  | ok i =>
    rw [execWord_of_ok hd] at h
    cases i with
    | loadbyte d =>
      rcases Nat.lt_or_ge s.wptr.toNat 1024 with hw | hw
      · rw [exec_loadbyte_of_room d hw] at h; cases h; exact ⟨rfl, rfl, rfl⟩
      · rw [exec_loadbyte_of_full d hw] at h; cases h; exact ⟨rfl, rfl, rfl⟩
    | _ => cases h; exact ⟨rfl, rfl, rfl⟩

/-- A step takes one edge off the list. -/
theorem step_edges {s t : State} (h : step s = .next t) : t.edges = s.edges.tail := by
  unfold step clockEdge at h
  split at h
  · cases h; rfl
  · unfold commandEdge at h
    split at h
    · cases hw : execWord s.nextEdge.cmdData s.dropEdge with
      | next u =>
        rw [hw] at h
        cases h
        rw [(State.responseEdge_keeps _ u).2.1, (execWord_samePort hw).1, State.dropEdge_edges]
      | fault r => rw [hw] at h; cases h
      | refused r => rw [hw] at h; cases h
    · cases h
      rw [(State.responseEdge_keeps _ _).2.1, State.dropEdge_edges]

/-- A run of `k` steps takes the first `k` edges off the list. -/
theorem run_edges {k : Nat} {s t : State} (h : core.run k s = .next t) : t.edges = s.edges.drop k := by
  induction k generalizing s with
  | zero => cases h; rfl
  | succ k ih =>
    simp only [Host.Core.run] at h
    split at h
    · next u hu => rw [ih h, step_edges hu, List.drop_tail]
    · cases h
    · cases h

/-- What holds along a run holds along what is left of it. -/
theorem Along.later {P : State → Prop} {k : Nat} {s t : State} (h : Along P s) (hk : core.run k s = .next t) :
    Along P t := by
  intro m u hm hu
  rw [run_edges hk, List.length_drop] at hm
  exact h (k + m) u (by omega) ((run_add_of_next hk m).trans hu)

/-- Along a run over copies of one edge, that edge is the next one before every step. -/
theorem nextEdge_of_replicate {k n : Nat} {e : Edge} {s t : State} (hs : s.edges = List.replicate n e) (hk : k < n)
    (h : core.run k s = .next t) : t.nextEdge = e := by
  obtain ⟨m, hm⟩ : ∃ m, n - k = m + 1 := ⟨n - k - 1, by omega⟩
  rw [State.nextEdge, run_edges h, hs, List.drop_replicate, hm, List.replicate_succ, List.headD_cons]

end Sys2Proof.Machine
end

