-- ==== Sys2Proof/Tests/Slice0.lean ====
section
/-! SUPPORT. Tests. Expected results are the spec's: the bit patterns of R49, and the vectors of 95_test_vectors.md (named
by section at each test), which the spec derives from its rules. Then, for every statement with hypotheses, a state and
operands that meet them (witness_…). -/

namespace Sys2Proof.Tests

open Sys2Proof.Machine

/-! ## Helpers -/

/-- The next state of an outcome, where it is one. -/
def after (o : Host.Outcome State Fault Refusal) : Option State :=
  match o with
  | .next t => some t
  | .fault _ => none
  | .refused _ => none

/-- The responses an outcome holds. -/
def responses (o : Host.Outcome State Fault Refusal) : Option (List Word) := (after o).map State.pending

/-- One byte of the state after. -/
def byteAfter (o : Host.Outcome State Fault Refusal) (a : Nat) : Option Byte := (after o).map fun t => t.fb.read a

/-- WPTR, ILL and TRUNC of the state after. -/
def statusAfter (o : Host.Outcome State Fault Refusal) : Option (Nat × Bool × Bool) :=
  (after o).map fun t => (t.wptr.toNat, t.ill, t.trunc)

/-- State V of 95_test_vectors.md section 2.3, with a CFG. -/
def stateV (o : BitOrder) (v : Bool) : State :=
  { State.reset with
    fb := [(0, 0x01), (7, 0x81), (128, 0x80), (165, 0x03), (1016, 0x0F), (1023, 0xAA)], bitOrder := o, invert := v }

/-- A state with a load pointer and TRUNC. -/
def loading (p : BitVec 11) (trunc : Bool) : State := { State.reset with wptr := p, trunc := trunc }

/-- A state whose next edges are given. -/
def atPort (es : List Edge) : State := { State.reset with edges := es }

/-! ## Decoding: words written out from the bit patterns of R49 -/

theorem test_decode_nop : decode 0b00000000000000000000000000000000 = .ok .nop := by decide
theorem test_decode_loadstart : decode 0b00010000000000000000000000000000 = .ok .loadstart := by decide
theorem test_decode_loadbyte : decode 0b00100000000000000000000010100110 = .ok (.loadbyte 0b10100110) := by decide
theorem test_decode_wrbyte :
    decode 0b00110010000001010000000011000011 = .ok (.wrbyte 0b1000000101 0b11000011) := by decide
theorem test_decode_rdbyte : decode 0b01000001100000010000000000000000 = .ok (.rdbyte 0b0110000001) := by decide
theorem test_decode_rdpix : decode 0b01010000000000000010000101000011 = .ok (.rdpix 0b1000011 0b100001) := by decide
theorem test_decode_rdstrip : decode 0b01100000000000000000010001100001 = .ok (.rdstrip 0b1100001 0b100) := by decide
theorem test_decode_rdrow8 : decode 0b01110000000000000010001100001001 = .ok (.rdrow8 0b1001 0b100011) := by decide
theorem test_decode_wrcfg_msb : decode 0b10000000000000000000000000000010 = .ok (.wrcfg .msbFirst false) := by decide
theorem test_decode_wrcfg_inv : decode 0b10000000000000000000000000000001 = .ok (.wrcfg .lsbFirst true) := by decide
theorem test_decode_rdcfg : decode 0b10010000000000000000000000000000 = .ok .rdcfg := by decide
theorem test_decode_rdstat : decode 0b10100000000000000000000000000000 = .ok .rdstat := by decide
theorem test_decode_clrstat : decode 0b10110000000000000000000000000000 = .ok .clrstat := by decide

/-- The illegal words of section 2.1 that set a reserved bit. -/
theorem test_decode_reserved_bits :
    [0x00000001, 0x08000000, 0x10000001, 0x20000100, 0x28000000, 0x34000000, 0x30000100, 0x44000000, 0x40000001].all
      (fun w => decode w == .error .reservedBitSet) = true ∧
    [0x50000080, 0x50004000, 0x60000800, 0x60000080, 0x70000010, 0x70004000, 0x80000004, 0x90000001, 0xA0010000].all
      (fun w => decode w == .error .reservedBitSet) = true ∧ decode 0xB0000001 = .error .reservedBitSet := by decide

/-- The illegal words of section 2.1 with a reserved opcode. -/
theorem test_decode_reserved_opcodes :
    [0xC0000000, 0xD0000000, 0xE0000000, 0xFFFFFFFF].all (fun w => decode w == .error .reservedOpcode) = true := by decide

theorem test_decodeTableWord : decodeTableWord 32 0x60000725 = some (.rdstrip 37 7) ∧ decodeTableWord 32 0xC0000000 = none := by
  decide

/-! ## The range checks: an ill-formed term for each -/

theorem test_illformed_data : (Stmt.loadbyte 256).wellFormed = false ∧ (Stmt.wrbyte 0 256).wellFormed = false := by decide
theorem test_illformed_addr : (Stmt.rdbyte 1024).wellFormed = false ∧ (Stmt.wrbyte 1024 0).wellFormed = false := by decide
theorem test_illformed_column : (Stmt.rdpix 128 0).wellFormed = false ∧ (Stmt.rdstrip 128 0).wellFormed = false := by decide
theorem test_illformed_row : (Stmt.rdpix 0 64).wellFormed = false ∧ (Stmt.rdrow8 0 64).wellFormed = false := by decide
theorem test_illformed_page : (Stmt.rdstrip 0 8).wellFormed = false ∧ (Stmt.wrpc 8 0 0).wellFormed = false := by decide
theorem test_illformed_group : (Stmt.rdrow8 16 0).wellFormed = false := by decide
theorem test_illformed_bit : (Stmt.wrcfg 2 0).wellFormed = false ∧ (Stmt.wrcfg 0 2).wellFormed = false := by decide
theorem test_illformed_word : (Stmt.word (2 ^ 32)).wellFormed = false := by decide
theorem test_illformed_pseudo : (Stmt.loadbuf [0, 256]).wellFormed = false ∧ (Stmt.rdpc 0 128).wellFormed = false ∧
    (Stmt.setorder 2).wellFormed = false := by decide
theorem test_wellformed_bounds : (Stmt.wrbyte 1023 255).wellFormed = true ∧ (Stmt.rdpix 127 63).wellFormed = true ∧
    (Stmt.rdrow8 15 63).wellFormed = true ∧ (Stmt.rdstrip 127 7).wellFormed = true := by decide

/-! ## The assembler: lines of the programs of section 3 -/

theorem test_asm_wrbyte : assembleLine "WRBYTE 0x0A5, 0x03 ; page 1, column 37".toList = .ok [0x30A50003] := by decide
theorem test_asm_wrcfg : assembleLine "  WRCFG MSB, 1".toList = .ok [0x80000003] := by decide
theorem test_asm_word : assembleLine ".word 0xC0000000".toList = .ok [0xC0000000] := by decide
theorem test_asm_text :
    assembleText "LOADBUF 0b1, 255\n; a comment\nRDPIX 37, 14\n".toList =
      .ok [0x10000000, 0x20000001, 0x200000FF, 0x50000E25] := by decide
theorem test_asm_pseudo : assembleLine "WRPC 1, 37, 3".toList = .ok [0x30A50003] ∧
    assembleLine "SETORDER MSB".toList = .ok [0x80000002] ∧ assembleLine "CLEAR".toList = .ok [0x10000000] := by decide
theorem test_asm_out_of_range : assembleLine "RDPIX 128, 0".toList = .error .operandOutOfRange := by decide
theorem test_asm_errors : assembleLine "RDPIX 1".toList = .error .wrongOperandCount ∧
    assembleLine "JMP 1".toList = .error .unknownMnemonic ∧ assembleLine "RDBYTE LSB".toList = .error .badOperand := by decide

/-! ## The buffer commands: section 2.2 -/

theorem test_loadstart : byteAfter (exec .loadstart (stateV .lsbFirst false)) 165 = some 0x00 ∧
    statusAfter (exec .loadstart { loading 1024 true with ill := true }) = some (0, true, false) := by decide
theorem test_loadbyte_last : byteAfter (exec (.loadbyte 0xAA) (loading 1023 false)) 1023 = some 0xAA ∧
    statusAfter (exec (.loadbyte 0xAA) (loading 1023 false)) = some (1024, false, false) := by decide
theorem test_loadbyte_dropped : byteAfter (exec (.loadbyte 0x55) (loading 1024 false)) 0 = some 0x00 ∧
    statusAfter (exec (.loadbyte 0x55) (loading 1024 false)) = some (1024, false, true) := by decide
theorem test_wrbyte : byteAfter (exec (.wrbyte 0x3FF 0xFF) (loading 3 false)) 1023 = some 0xFF ∧
    statusAfter (exec (.wrbyte 0x3FF 0xFF) (loading 3 false)) = some (3, false, false) := by decide
theorem test_wrbyte_zero_unlists :
    (after (exec (.wrbyte 165 0) (stateV .lsbFirst false))).map (fun t => t.fb) =
      some [(0, 0x01), (7, 0x81), (128, 0x80), (1016, 0x0F), (1023, 0xAA)] := by decide
theorem test_rdbyte_ignores_cfg : responses (exec (.rdbyte 0x3FF) (stateV .msbFirst true)) = some [0x000000AA] := by decide

/-! ## The decode commands: sections 2.3 to 2.5, under the four values of CFG -/

theorem test_rdpix : responses (exec (.rdpix 127 57) (stateV .lsbFirst false)) = some [1] ∧
    responses (exec (.rdpix 127 57) (stateV .msbFirst false)) = some [0] ∧
    responses (exec (.rdpix 127 57) (stateV .lsbFirst true)) = some [0] ∧
    responses (exec (.rdpix 127 57) (stateV .msbFirst true)) = some [1] := by decide
theorem test_rdpix_page_boundary : responses (exec (.rdpix 0 7) (stateV .lsbFirst false)) = some [0] ∧
    responses (exec (.rdpix 0 8) (stateV .msbFirst false)) = some [1] := by decide
theorem test_rdstrip : responses (exec (.rdstrip 37 1) (stateV .lsbFirst false)) = some [0x03] ∧
    responses (exec (.rdstrip 37 1) (stateV .msbFirst false)) = some [0xC0] ∧
    responses (exec (.rdstrip 37 1) (stateV .lsbFirst true)) = some [0xFC] ∧
    responses (exec (.rdstrip 37 1) (stateV .msbFirst true)) = some [0x3F] := by decide
theorem test_rdrow8 : responses (exec (.rdrow8 15 57) (stateV .lsbFirst false)) = some [0x81] ∧
    responses (exec (.rdrow8 15 57) (stateV .msbFirst false)) = some [0x00] ∧
    responses (exec (.rdrow8 4 14) (stateV .lsbFirst true)) = some [0xFF] ∧
    responses (exec (.rdrow8 4 14) (stateV .msbFirst true)) = some [0xDF] := by decide

/-! ## The control commands: section 2.6 -/

theorem test_nop : after (exec .nop (loading 5 false)) = some { loading 5 false with pending := [0] } := by decide
theorem test_wrcfg : (after (exec (.wrcfg .msbFirst false) State.reset)).map (fun t => (t.bitOrder, t.invert)) =
    some (.msbFirst, false) := by decide
theorem test_rdcfg : responses (exec .rdcfg (stateV .msbFirst false)) = some [2] ∧
    responses (exec .rdcfg (stateV .lsbFirst true)) = some [1] := by decide
theorem test_rdstat : responses (exec .rdstat (loading 1023 false)) = some [0x03FF0000] ∧
    responses (exec .rdstat (loading 1024 true)) = some [0x04000006] := by decide
theorem test_clrstat : statusAfter (exec .clrstat { loading 1024 true with ill := true }) = some (1024, false, false) := by
  decide
theorem test_illegal_clrstat : responses (execWord 0xB0000001 { loading 5 false with ill := true }) = some [0x80000000] ∧
    statusAfter (execWord 0xB0000001 { loading 5 false with ill := true }) = some (5, true, false) := by decide

/-! ## The port -/

/-- An edge that accepts LOADBYTE 0x5A, at which the block presents and the host takes the response at once. -/
def busyEdge : Edge := { Edge.command 0x2000005A with rspReady := true, willPresent := true }

/-- An edge at which nothing is accepted and the oldest response is presented and taken. -/
def takeEdge : Edge := { Edge.idle with rspReady := true, willPresent := true }

/-- An edge at which a command is offered but the block is not ready, and the oldest response is presented and taken. -/
def waitEdge : Edge := { busyEdge with willAccept := false }

/-- An edge with reset, at which a command is offered and the block's timing would let it accept and present. -/
def resetEdge : Edge := { busyEdge with rst := true }

theorem test_step_runs_the_fetch_word : byteAfter (step (State.reset.withFetchWord 32 0x2000005A)) 0 = some 0x5A := by decide
theorem test_step_accepts_and_delivers :
    (after (step (atPort [busyEdge]))).map (fun t => (t.delivered, t.pending)) = some ([0x00000000], []) := by decide
theorem test_step_waits_while_not_ready :
    (after (step (atPort [{ busyEdge with willAccept := false }]))).map (fun t => (t.delivered, t.wptr)) = some ([], 0) := by
  decide
theorem test_step_offered_stays_offered :
    (after (step { atPort [{ takeEdge with rspReady := false }] with pending := [7] })).map
      (fun t => (t.offered, t.pending, t.delivered)) = some (true, [7], []) := by decide
theorem test_outputs_are_zero_in_reset : { atPort [resetEdge] with pending := [7], offered := true }.nextCmdReady = false ∧
    { atPort [resetEdge] with pending := [7], offered := true }.nextRspValid = false := by decide
theorem test_step_reset_drops_the_response :
    after (step { stateV .msbFirst true with edges := [resetEdge], pending := [7], delivered := [1] }) =
      some { State.reset with delivered := [1] } := by decide

/-! ## Witnesses: for each statement with hypotheses, a state and operands that meet them -/

theorem witness_EncoderIdentityBothWays : isLegal 0x33FF00FF = true ∧
    assemble (.wrbyte 1023 255) = .ok [0x33FF00FF] ∧ assemble (.loadbyte 255) = .ok [0x200000FF] ∧
    assemble (.rdbyte 1023) = .ok [0x43FF0000] ∧ assemble (.rdpix 127 63) = .ok [0x50003F7F] ∧
    assemble (.rdstrip 127 7) = .ok [0x6000077F] ∧ assemble (.rdrow8 15 63) = .ok [0x70003F0F] ∧
    assemble (.wrcfg 1 1) = .ok [0x80000003] := by decide

theorem witness_LegalExactlyWhenOneRowMatches :
    (0x80000002 : Word) &&& 0xFFFFFFFC = 0x80000000 ∧ decode 0x80000002 = .ok (.wrcfg .msbFirst false) := by decide

theorem witness_illegal_words : isLegal 0x08000000 = false ∧ isLegal 0xC0000000 = false ∧
    isLegal 0x50003F7F = true ∧ State.reset.ill = false := by decide

theorem witness_PseudoInstructions : (Stmt.loadbuf [0, 255]).wellFormed = true ∧ (Stmt.wrpc 7 127 255).wellFormed = true := by
  decide

theorem witness_StepRunsTheDecodedCommand : (atPort [busyEdge]).edges = [busyEdge] ∧ busyEdge.rst = false ∧
    busyEdge.cmdValid = true ∧ busyEdge.cmdReady = true ∧ decode busyEdge.cmdData = .ok (.loadbyte 0x5A) := by decide

theorem witness_StepOfAnIllegalWord : (atPort [Edge.command 0xC0000000]).edges = [Edge.command 0xC0000000] ∧
    (Edge.command 0xC0000000).accepts = true ∧ decode (Edge.command 0xC0000000).cmdData = .error .reservedOpcode := by decide

theorem witness_IdlePort : (stateV .msbFirst true).edges = [] := by decide

theorem witness_Handshake : Edge.idle.rst = false ∧ Edge.idle.accepts = false ∧
    { State.reset with pending := [7] }.rspValid takeEdge = true ∧ takeEdge.rspReady = true ∧
    ({ State.reset with pending := [7] }.rspValid Edge.idle && Edge.idle.rspReady) = false ∧
    { State.reset with pending := [7] }.rspValid { takeEdge with rspReady := false } = true ∧ busyEdge.rst = false := by decide

theorem witness_PortRun : NoReset (atPort [busyEdge, takeEdge, busyEdge]).edges ∧
    acceptedWords (atPort [busyEdge, takeEdge, busyEdge]).edges = [0x2000005A, 0x2000005A] := by
  refine ⟨?_, rfl⟩
  unfold NoReset
  decide

theorem witness_ResetDropsResponsesInFlight :
    { atPort [resetEdge, busyEdge] with pending := [7] }.edges = resetEdge :: [busyEdge] ∧ resetEdge.rst = true ∧
      NoReset [busyEdge] ∧ { atPort [resetEdge, resetEdge] with pending := [7] }.edges = resetEdge :: [resetEdge] := by
  refine ⟨rfl, rfl, ?_, rfl⟩
  unfold NoReset
  decide

theorem witness_ResetEdgeSilencesThePort :
    { atPort [resetEdge, waitEdge, busyEdge] with pending := [7] }.edges = resetEdge :: ([waitEdge] ++ [busyEdge]) ∧
      resetEdge.rst = true ∧ NoReset [waitEdge] ∧ acceptedWords [waitEdge] = [] := by
  refine ⟨rfl, rfl, ?_, rfl⟩
  unfold NoReset
  decide

theorem noReset_of_replicate (n : Nat) (e : Edge) (h : e.rst = false) : NoReset (List.replicate n e) := by
  intro f hf
  rw [List.eq_of_mem_replicate hf, h]

/-- At an edge that takes and accepts nothing, `rsp_valid` is 1 where a response waits. -/
theorem nextRspValid_of_takeEdge {t : State} (h : t.nextEdge = takeEdge) (hp : t.pending ≠ []) : t.nextRspValid = true := by
  rw [State.nextRspValid_of_next (t := t.dropEdge) (by rw [h]; rfl), h, State.rspValid_iff]
  exact ⟨rfl, hp, .inr rfl⟩

/-- At an edge that accepts a command and presents at once, `rsp_valid` is 1. -/
theorem nextRspValid_of_busyEdge {t : State} (h : t.nextEdge = busyEdge) : t.nextRspValid = true := by
  obtain ⟨u, hu, hne⟩ : ∃ u, commandEdge t.nextEdge t.dropEdge = .next u ∧ u.pending ≠ [] := by
    rw [h, commandEdge_accept rfl, execWord_of_ok (i := .loadbyte 0x5A) rfl]
    rcases Nat.lt_or_ge t.dropEdge.wptr.toNat 1024 with hw | hw
    · exact ⟨_, exec_loadbyte_of_room _ hw, by simp⟩
    · exact ⟨_, exec_loadbyte_of_full _ hw, by simp⟩
  rw [State.nextRspValid_of_next hu, State.rspValid_iff, h]
  exact ⟨rfl, hne, .inr rfl⟩

/-- One response waits, and the edges are as many as CMD_LATENCY allows. -/
theorem witness_FiniteLatencyGivesProgress_responses :
    ∃ s : State, s.pending = [7] ∧ NoReset s.edges ∧ HostTakes s ∧ PresentsWithin Config.cmdLatency s ∧
      (Config.cmdLatency + 1) * s.pending.length ≤ s.edges.length := by
  have next : ∀ k t, k < (List.replicate (Config.cmdLatency + 1) takeEdge).length →
      core.run k { atPort (List.replicate (Config.cmdLatency + 1) takeEdge) with pending := [7] } = .next t →
      t.nextEdge = takeEdge := fun k t hk ht => nextEdge_of_replicate rfl (by simpa using hk) ht
  refine ⟨{ atPort (List.replicate (Config.cmdLatency + 1) takeEdge) with pending := [7] }, rfl,
    noReset_of_replicate _ _ rfl, fun k t hk ht _ => ?_, fun k t hk ht _ hp => ?_, ?_⟩
  · exact congrArg Edge.rspReady (next k t hk ht)
  · exact ⟨0, Nat.zero_le _, t, rfl, nextRspValid_of_takeEdge (next k t hk ht) hp⟩
  · simp [atPort]

/-- A host that takes responses only where `rsp_valid` is 1 keeps its part of R97. -/
theorem witness_HostTakes_not_ready_while_nothing_is_offered :
    HostTakes (atPort [Edge.idle]) ∧ Edge.idle.rspReady = false := by
  refine ⟨fun k t hk ht hv => ?_, rfl⟩
  obtain rfl : k = 0 := Nat.lt_one_iff.1 hk
  cases ht
  exact absurd hv (by decide)

/-- A response waits and a command is offered at an edge at which the block is not ready; the block is ready once the
response has been taken. -/
theorem witness_FiniteLatencyGivesProgress_command :
    ∃ s e es, s.pending = [7] ∧ s.edges = e :: es ∧ e.accepts = false ∧ NoReset s.edges ∧ HostTakes s ∧
      PresentsWithin Config.cmdLatency s ∧ ReadyWithin Config.cmdLatency s ∧ HostHolds s.edges ∧ e.cmdValid = true ∧
      (Config.cmdLatency + 1) * s.pending.length + Config.cmdLatency < s.edges.length := by
  have holds : ∀ n, HostHolds (List.replicate n busyEdge) := by
    intro n
    induction n with
    | zero => trivial
    | succ n ih => exact ⟨fun _ h => absurd h (by decide), ih⟩
  let es := List.replicate (2 * Config.cmdLatency + 1) busyEdge
  let s : State := { atPort (waitEdge :: es) with pending := [7] }
  have first : step s = .next { atPort es with delivered := [7] } := rfl
  have edge : ∀ k t, k < s.edges.length → core.run k s = .next t →
      k = 0 ∧ t = s ∨ t.nextEdge = busyEdge := by
    intro k t hk ht
    cases k with
    | zero => cases ht; exact .inl ⟨rfl, rfl⟩
    | succ k =>
      rw [run_succ_of_step first] at ht
      exact .inr (nextEdge_of_replicate rfl (by simpa [s, es, atPort] using hk) ht)
  refine ⟨s, waitEdge, es, rfl, rfl, rfl, ?_, fun k t hk ht _ => ?_, fun k t hk ht _ hp => ?_, fun k t hk ht _ hp => ?_,
    ⟨fun _ _ f hf => ?_, holds _⟩, rfl, ?_⟩
  · intro f hf
    rcases List.mem_cons.1 hf with rfl | hf
    · rfl
    · rw [List.eq_of_mem_replicate hf]; rfl
  · rcases edge k t hk ht with ⟨-, rfl⟩ | h
    · rfl
    · exact congrArg Edge.rspReady h
  · refine ⟨0, Nat.zero_le _, t, rfl, ?_⟩
    rcases edge k t hk ht with ⟨-, rfl⟩ | h
    · rfl
    · exact nextRspValid_of_busyEdge h
  · refine ⟨0, Nat.zero_le _, t, rfl, ?_⟩
    rcases edge k t hk ht with ⟨-, rfl⟩ | h
    · cases hp
    · exact congrArg Edge.cmdReady h
  · simp only [es, List.head?_replicate] at hf
    cases hf
    exact ⟨rfl, rfl⟩
  · simp only [s, es, atPort, List.length_cons, List.length_replicate, List.length_nil]
    omega

/-- The host's duty at an edge that does not accept: the offer is held. -/
theorem witness_HostHolds_a_refused_offer :
    HostHolds [{ busyEdge with willAccept := false }, busyEdge] ∧ { busyEdge with willAccept := false }.accepts = false := by
  refine ⟨⟨fun _ _ f hf => ?_, ⟨fun _ h => absurd h (by decide), trivial⟩⟩, rfl⟩
  cases hf
  exact ⟨rfl, rfl⟩

theorem witness_ResetEdge : (atPort [resetEdge]).edges = [resetEdge] ∧ resetEdge.rst = true := by decide

/-- A full buffer with TRUNC set, a listed cell and a response on offer. -/
def fullState : State :=
  { stateV .msbFirst true with wptr := 1024, trunc := true, pending := [7], offered := true, edges := [busyEdge] }

theorem witness_Inv : Inv fullState := ⟨by decide, by decide, by decide, by decide⟩

theorem witness_ReservedBitsAreIllegal :
    [((0x0 : BitVec 4), (0x08000000 : Word), (0x0FFFFFFF : Word)), (0x1, 0x10000001, 0x0FFFFFFF),
      (0x2, 0x20000100, 0x0FFFFF00), (0x3, 0x34000000, 0x0C00FF00), (0x4, 0x40000001, 0x0C00FFFF),
      (0x5, 0x50000080, 0x0FFFC080)].all (fun q => opcodeOf q.2.1 == q.1 && q.2.1 &&& q.2.2 != 0) = true ∧
    [((0x6 : BitVec 4), (0x60000800 : Word), (0x0FFFF880 : Word)), (0x7, 0x70000010, 0x0FFFC0F0),
      (0x8, 0x80000004, 0x0FFFFFFC), (0x9, 0x90000001, 0x0FFFFFFF), (0xA, 0xA0010000, 0x0FFFFFFF),
      (0xB, 0xB0000001, 0x0FFFFFFF)].all (fun q => opcodeOf q.2.1 == q.1 && q.2.1 &&& q.2.2 != 0) = true := by decide

theorem witness_LoadstartAfterReset : SameBlock State.reset (atPort [busyEdge]) := ⟨rfl, rfl, rfl, rfl, rfl, rfl⟩

theorem witness_Loadbyte_room_and_full : (loading 1023 false).wptr.toNat < 1024 ∧ (loading 1024 false).wptr.toNat = 1024 ∧ 1024 < (loading 1025 false).wptr.toNat := by
  decide

theorem witness_LoadStreamEqualsParse :
    commandsOf [0x200000FF, 0xC0000000, 0xA0000000, 0x20000000] = [.loadbyte 0xFF, .rdstat, .loadbyte 0x00] ∧
    (commandsOf [0x200000FF, 0xC0000000, 0xA0000000, 0x20000000]).filterMap loadedByte = [0xFF, 0x00] ∧
    Instr.clrstat ∉ commandsOf [0x200000FF, 0xC0000000, 0xA0000000, 0x20000000] := by decide

theorem witness_invert_off : (stateV .msbFirst false).invert = false := by decide

theorem witness_colours : (fun n => 255 - n) ((fun b : Bool => if b then 255 else 0) true) = (fun b : Bool => if b then 255 else 0) false ∧
    (fun n => 255 - n) ((fun b : Bool => if b then 255 else 0) false) = (fun b : Bool => if b then 255 else 0) true := by decide

theorem witness_DecodeCommandsAreDeterministic : decode 0x6000077F = .ok (.rdstrip 127 7) ∧
    { stateV .msbFirst true with wptr := 9, ill := true }.fb = (stateV .msbFirst true).fb := by decide

theorem witness_no_clrstat : ∀ w ∈ [0xC0000000#32, 0xA0000000#32], decode w ≠ .ok .clrstat := by
  intro w hw
  rcases List.mem_cons.1 hw with rfl | hw
  · decide
  · rw [List.mem_singleton.1 hw]
    decide

theorem witness_TruncRecordsDroppedBytes : (loading 1024 true).wptr.toNat ≤ 1024 ∧
    after (exec .clrstat (loading 1024 true)) = some { loading 1024 false with pending := [0] } ∧
    after (exec .loadstart (loading 1024 true)) = some { loading 0 false with pending := [0] } ∧
    (∀ w ∈ [0x20000055#32], decode w ≠ .ok .loadstart ∧ decode w ≠ .ok .clrstat) := by
  refine ⟨by decide, by decide, by decide, fun w hw => ?_⟩
  rw [List.mem_singleton.1 hw]
  decide

theorem witness_FlagsSteerNothing : statusAfter (execWord 0x20000055 (loading 1024 false)) = some (1024, false, true) ∧
    (loading 1024 false).trunc = false ∧ isLegal 0xFFFFFFFF = false ∧ decode 0x20000055 ≠ .ok .rdstat := by decide

theorem witness_OnlyTheNamedCommandsWrite : byteAfter (execWord 0x2000005A State.reset) 0 = some 0x5A ∧
    State.reset.fb.read 0 = 0x00 ∧
    (after (execWord 0x80000003 State.reset)).map (fun t => (t.invert, t.bitOrder)) = some (true, .msbFirst) ∧
    (after (execWord 0xC0000000 State.reset)).map State.ill = some true := by decide

theorem witness_ReadsAndWrites : (loading 1023 false).wptr.toNat < 1024 ∧ Instr.rdcfg ∈ [Instr.rdcfg, .rdstat] := by decide

theorem witness_EveryStateBitCanBeReadBack : Inv (stateV .msbFirst true) ∧
    ∀ i : Instr, (∃ a, i = .rdbyte a) ∨ i = .rdcfg ∨ i = .rdstat →
      ∃ u v rsp, exec i (stateV .msbFirst true) = .next u ∧ exec i (stateV .msbFirst true) = .next v ∧
        u.pending = (stateV .msbFirst true).pending ++ [rsp] ∧ v.pending = (stateV .msbFirst true).pending ++ [rsp] := by
  refine ⟨⟨by decide, by decide, by decide, by decide⟩, ?_⟩
  rintro i (⟨a, rfl⟩ | rfl | rfl) <;> exact ⟨_, _, _, rfl, rfl, rfl, rfl⟩

end Sys2Proof.Tests
end

section
/-! SUPPORT. What a legal word is, field by field: the rows of R49 as an opcode and reserved bits, and that the words a
row matches are those the decoder accepts (R50). -/

namespace Sys2Proof

/-- The bits of a row's mask other than bits 31:28 are the reserved bits of its format (R47, R49). -/
def rowOfFields (mnemonic : String) (op : BitVec 4) (reserved : Word) : OpcodeRow :=
  ⟨mnemonic, placed op 28, placed 0xF#4 28 ||| reserved⟩

theorem opcodeTable_eq_rowsOfFields : opcodeTable =
    [rowOfFields "NOP" 0x0 0x0FFFFFFF#32, rowOfFields "LOADSTART" 0x1 0x0FFFFFFF#32, rowOfFields "LOADBYTE" 0x2 0x0FFFFF00#32,
     rowOfFields "WRBYTE" 0x3 0x0C00FF00#32, rowOfFields "RDBYTE" 0x4 0x0C00FFFF#32, rowOfFields "RDPIX" 0x5 0x0FFFC080#32,
     rowOfFields "RDSTRIP" 0x6 0x0FFFF880#32, rowOfFields "RDROW8" 0x7 0x0FFFC0F0#32, rowOfFields "WRCFG" 0x8 0x0FFFFFFC#32,
     rowOfFields "RDCFG" 0x9 0x0FFFFFFF#32, rowOfFields "RDSTAT" 0xA 0x0FFFFFFF#32, rowOfFields "CLRSTAT" 0xB 0x0FFFFFFF#32] := by
  decide

theorem getLsbD_placed {n : Nat} (v : BitVec n) {lo : Nat} (h : lo + n ≤ 32) (k : Nat) :
    (placed v lo).getLsbD k = (decide (lo ≤ k) && v.getLsbD (k - lo)) := by
  rcases Nat.lt_or_ge (k - lo) n with hk | hk
  · rcases Nat.lt_or_ge k lo with hlo | hlo
    · simp [placed, hlo]
    · simp [placed, hlo, show k < 32 by omega]
  · simp [placed, BitVec.getLsbD_of_ge v (k - lo) hk]

/-- A word agrees with a field's value under the field's mask iff the field has that value. -/
theorem and_placed_allOnes_eq_iff (w : Word) {n : Nat} (v : BitVec n) {lo : Nat} (h : lo + n ≤ 32) :
    w &&& placed (BitVec.allOnes n) lo = placed v lo ↔ w.extractLsb' lo n = v := by
  constructor
  · intro hw
    apply BitVec.eq_of_getLsbD_eq
    intro k hk
    have hbit := congrArg (BitVec.getLsbD · (lo + k)) hw
    simpa [getLsbD_placed _ h, hk] using hbit
  · rintro rfl
    apply BitVec.eq_of_getLsbD_eq
    intro k _
    rw [BitVec.getLsbD_and, getLsbD_placed _ h, getLsbD_placed _ h]
    rcases Nat.lt_or_ge k lo with hlo | hlo
    · simp [Nat.not_le.2 hlo]
    · simp [hlo, Bool.and_comm]

/-- No bit of a field is set under the field's mask iff the field is 0. -/
theorem and_placed_allOnes_eq_zero_iff (w : Word) (n : Nat) {lo : Nat} (h : lo + n ≤ 32) :
    w &&& placed (BitVec.allOnes n) lo = 0#32 ↔ w.extractLsb' lo n = 0#n := by
  rw [← and_placed_allOnes_eq_iff w 0#n h]
  simp [placed]

/-- Two reserved fields are clear iff no bit is set under the mask of both. -/
theorem and_two_fields_eq_zero_iff (w : Word) (m n : Nat) {lo lo' : Nat} (h : lo + m ≤ 32) (h' : lo' + n ≤ 32) :
    w &&& (placed (BitVec.allOnes m) lo ||| placed (BitVec.allOnes n) lo') = 0#32 ↔
      (w.extractLsb' lo m == 0#m && w.extractLsb' lo' n == 0#n) = true := by
  rw [BitVec.and_or_distrib_left, BitVec.or_eq_zero_iff, and_placed_allOnes_eq_zero_iff w m h,
    and_placed_allOnes_eq_zero_iff w n h']
  simp

/-! The reserved bits of each format of R47, as a mask -/

theorem reservedClearN_iff (w : Word) : reservedClearN w = true ↔ w &&& 0x0FFFFFFF#32 = 0#32 :=
  beq_iff_eq.trans (and_placed_allOnes_eq_zero_iff w 28 (lo := 0) (by decide)).symm

theorem reservedClearD_iff (w : Word) : reservedClearD w = true ↔ w &&& 0x0FFFFF00#32 = 0#32 :=
  beq_iff_eq.trans (and_placed_allOnes_eq_zero_iff w 20 (lo := 8) (by decide)).symm

theorem reservedClearC_iff (w : Word) : reservedClearC w = true ↔ w &&& 0x0FFFFFFC#32 = 0#32 :=
  beq_iff_eq.trans (and_placed_allOnes_eq_zero_iff w 26 (lo := 2) (by decide)).symm

theorem reservedClearAD_iff (w : Word) : reservedClearAD w = true ↔ w &&& 0x0C00FF00#32 = 0#32 :=
  (and_two_fields_eq_zero_iff w 2 8 (lo := 26) (lo' := 8) (by decide) (by decide)).symm

theorem reservedClearA_iff (w : Word) : reservedClearA w = true ↔ w &&& 0x0C00FFFF#32 = 0#32 :=
  (and_two_fields_eq_zero_iff w 2 16 (lo := 26) (lo' := 0) (by decide) (by decide)).symm

theorem reservedClearXY_iff (w : Word) : reservedClearXY w = true ↔ w &&& 0x0FFFC080#32 = 0#32 :=
  (and_two_fields_eq_zero_iff w 14 1 (lo := 14) (lo' := 7) (by decide) (by decide)).symm

theorem reservedClearXP_iff (w : Word) : reservedClearXP w = true ↔ w &&& 0x0FFFF880#32 = 0#32 :=
  (and_two_fields_eq_zero_iff w 17 1 (lo := 11) (lo' := 7) (by decide) (by decide)).symm

theorem reservedClearGY_iff (w : Word) : reservedClearGY w = true ↔ w &&& 0x0FFFC0F0#32 = 0#32 :=
  (and_two_fields_eq_zero_iff w 14 4 (lo := 14) (lo' := 4) (by decide) (by decide)).symm

/-! Legality -/

theorem extractLsb'_placed {n : Nat} (v : BitVec n) {lo : Nat} (h : lo + n ≤ 32) : (placed v lo).extractLsb' lo n = v := by
  apply BitVec.eq_of_getLsbD_eq
  intro k hk
  simp [getLsbD_placed v h, hk]

/-- A row whose reserved bits lie below bit 28 covers exactly the words of its opcode whose reserved bits are clear. -/
theorem rowOfFields_covers_iff (name : String) (op : BitVec 4) {reserved : Word} (h : 0xF0000000#32 &&& reserved = 0#32)
    (w : Word) : (rowOfFields name op reserved).covers w = true ↔ opcodeOf w = op ∧ w &&& reserved = 0#32 := by
  have hop (u : Word) : u &&& 0xF0000000#32 = placed op 28 ↔ opcodeOf u = op :=
    and_placed_allOnes_eq_iff u op (lo := 28) (by decide)
  have hpat : placed op 28 &&& reserved = 0#32 := by
    rw [← (hop (placed op 28)).2 (extractLsb'_placed op (by decide)), BitVec.and_assoc, h, BitVec.and_zero]
  rw [OpcodeRow.covers, beq_iff_eq, ← hop w]
  show w &&& (0xF0000000#32 ||| reserved) = placed op 28 ↔ _
  rw [BitVec.and_or_distrib_left]
  constructor
  · intro hw
    have hres : w &&& reserved = 0#32 := by
      have hand := congrArg (· &&& reserved) hw
      simpa [BitVec.and_or_distrib_right, BitVec.and_assoc, h, hpat] using hand
    exact ⟨by simpa [hres] using hw, hres⟩
  · rintro ⟨hw, hres⟩
    rw [hw, hres, BitVec.or_zero]

theorem checkedInstr_eq_ok_iff {b : Bool} {i j : Instr} : checkedInstr b i = .ok j ↔ b = true ∧ i = j := by
  cases b <;> simp [checkedInstr]

/-- The rows of R49, each as its opcode and its format's reserved bits. -/
theorem isLegal_iff_fields (w : Word) : isLegal w = true ↔
    opcodeOf w = 0x0 ∧ reservedClearN w = true ∨ opcodeOf w = 0x1 ∧ reservedClearN w = true ∨
    opcodeOf w = 0x2 ∧ reservedClearD w = true ∨ opcodeOf w = 0x3 ∧ reservedClearAD w = true ∨
    opcodeOf w = 0x4 ∧ reservedClearA w = true ∨ opcodeOf w = 0x5 ∧ reservedClearXY w = true ∨
    opcodeOf w = 0x6 ∧ reservedClearXP w = true ∨ opcodeOf w = 0x7 ∧ reservedClearGY w = true ∨
    opcodeOf w = 0x8 ∧ reservedClearC w = true ∨ opcodeOf w = 0x9 ∧ reservedClearN w = true ∨
    opcodeOf w = 0xA ∧ reservedClearN w = true ∨ opcodeOf w = 0xB ∧ reservedClearN w = true := by
  simp (disch := decide) only [isLegal, opcodeTable_eq_rowsOfFields, List.any_cons, List.any_nil, Bool.or_eq_true,
    Bool.or_false, rowOfFields_covers_iff, reservedClearN_iff, reservedClearD_iff, reservedClearAD_iff,
    reservedClearA_iff, reservedClearXY_iff, reservedClearXP_iff, reservedClearGY_iff, reservedClearC_iff]

/-- R50: the words a row of R49 matches are the words the decoder accepts. -/
theorem isLegal_iff_decode_ok (w : Word) : isLegal w = true ↔ ∃ i, decode w = .ok i := by
  rw [isLegal_iff_fields]
  constructor
  · rintro (⟨hop, hr⟩ | ⟨hop, hr⟩ | ⟨hop, hr⟩ | ⟨hop, hr⟩ | ⟨hop, hr⟩ | ⟨hop, hr⟩ | ⟨hop, hr⟩ | ⟨hop, hr⟩ |
      ⟨hop, hr⟩ | ⟨hop, hr⟩ | ⟨hop, hr⟩ | ⟨hop, hr⟩) <;>
    exact ⟨_, by rw [decode, hop]; exact checkedInstr_eq_ok_iff.2 ⟨hr, rfl⟩⟩
  · rintro ⟨i, hi⟩
    have hop {n : Nat} (h : (opcodeOf w).toNat = n) : opcodeOf w = BitVec.ofNat 4 n :=
      BitVec.eq_of_toNat_eq (by simp [← h])
    unfold decode at hi
    split at hi
    case h_13 => cases hi
    all_goals
      next h => simp [hop h, (checkedInstr_eq_ok_iff.1 hi).1]

theorem isLegal_eq_false_iff (w : Word) : isLegal w = false ↔ ∃ r, decode w = .error r := by
  rw [← Bool.not_eq_true, isLegal_iff_decode_ok]
  cases decode w <;> simp

end Sys2Proof
end

section
/-! SUPPORT. What a command and a run of words do to the flags and WPTR, and that FB, CFG and WPTR do not see the flags
(10_state.md sections 3 and 4). -/

namespace Sys2Proof.Machine

/-! Every command, word and run gives a next state -/

theorem exec_next (i : Instr) (s : State) : ∃ t, exec i s = .next t := by
  cases i <;> exact ⟨_, rfl⟩

theorem execWord_next (w : Word) (s : State) : ∃ t, execWord w s = .next t := by
  cases hd : decode w with
  | ok i => rw [execWord_of_ok hd]; exact exec_next i s
  | error r => rw [execWord_of_error hd]; exact ⟨_, rfl⟩

theorem execWords_next (ws : List Word) (s : State) : ∃ t, execWords ws s = .next t := by
  induction ws generalizing s with
  | nil => exact ⟨s, rfl⟩
  | cons w ws ih =>
    obtain ⟨u, hu⟩ := execWord_next w s
    rw [execWords_cons_of_next hu]
    exact ih u

/-- The first word of a run and the rest of it. -/
theorem execWords_cons_inv {w : Word} {ws : List Word} {s t : State} (h : execWords (w :: ws) s = .next t) :
    ∃ u, execWord w s = .next u ∧ execWords ws u = .next t := by
  obtain ⟨u, hu⟩ := execWord_next w s
  exact ⟨u, hu, execWords_cons_of_next hu ws ▸ h⟩

theorem exec_loadbyte_cases {d : Byte} {s t : State} (h : exec (.loadbyte d) s = .next t) :
    s.wptr.toNat < 1024 ∧ t = (s.appendByte d).respond ackResponse ∨
    1024 ≤ s.wptr.toNat ∧ t = { s with trunc := true }.respond ackResponse := by
  rcases Nat.lt_or_ge s.wptr.toNat 1024 with hw | hw
  · rw [exec_loadbyte_of_room d hw] at h; cases h; exact .inl ⟨hw, rfl⟩
  · rw [exec_loadbyte_of_full d hw] at h; cases h; exact .inr ⟨hw, rfl⟩

/-- A word is executed as the command it decodes to, and is legal; or it raises IllegalCommand (R52, R80). -/
theorem execWord_cases {w : Word} {s t : State} (h : execWord w s = .next t) :
    (∃ i, decode w = .ok i ∧ isLegal w = true ∧ exec i s = .next t) ∨
    (∃ r, decode w = .error r) ∧ isLegal w = false ∧ t = { s with ill := true }.respond errResponse := by
  cases hd : decode w with
  | ok i => exact .inl ⟨i, rfl, (isLegal_iff_decode_ok w).2 ⟨i, hd⟩, execWord_of_ok hd s ▸ h⟩
  | error r =>
    rw [execWord_of_error hd] at h
    cases h
    exact .inr ⟨⟨r, rfl⟩, (isLegal_eq_false_iff w).2 ⟨r, hd⟩, rfl⟩

/-! ILL (R23) -/

/-- Of the commands, only CLRSTAT touches ILL. -/
theorem exec_ill {i : Instr} {s t : State} (h : exec i s = .next t) (hi : i ≠ .clrstat) : t.ill = s.ill := by
  cases i with
  | loadbyte d => obtain ⟨-, rfl⟩ | ⟨-, rfl⟩ := exec_loadbyte_cases h <;> rfl
  | clrstat => exact absurd rfl hi
  | _ => cases h; rfl

theorem execWord_ill {w : Word} {s t : State} (h : execWord w s = .next t) (hw : decode w ≠ .ok .clrstat) :
    t.ill = true ↔ s.ill = true ∨ isLegal w = false := by
  obtain ⟨i, hd, hl, he⟩ | ⟨-, hl, rfl⟩ := execWord_cases h
  · rw [exec_ill he fun hi => hw (hi ▸ hd)]
    simp [hl]
  · simp [hl]

theorem execWords_ill {ws : List Word} {s t : State} (h : execWords ws s = .next t)
    (hws : ∀ w ∈ ws, decode w ≠ .ok .clrstat) : t.ill = true ↔ s.ill = true ∨ ∃ w ∈ ws, isLegal w = false := by
  induction ws generalizing s with
  | nil => cases h; simp
  | cons w ws ih =>
    obtain ⟨u, hu, hrest⟩ := execWords_cons_inv h
    rw [List.forall_mem_cons] at hws
    rw [ih hrest hws.2, execWord_ill hu hws.1, List.exists_mem_cons_iff, or_assoc]

/-- From a state with ILL clear, a run without CLRSTAT sets ILL iff one of its words is illegal. -/
theorem execWords_records_illegal {u : State} (hu : u.ill = false) (ws : List Word)
    (hws : ∀ w ∈ ws, decode w ≠ .ok .clrstat) :
    ∃ t, execWords ws u = .next t ∧ (t.ill = true ↔ ∃ w ∈ ws, isLegal w = false) := by
  obtain ⟨t, ht⟩ := execWords_next ws u
  exact ⟨t, ht, by simp [execWords_ill ht hws, hu]⟩

/-! WPTR (R21) -/

theorem exec_wptr_le {i : Instr} {s t : State} (h : exec i s = .next t) (hs : s.wptr.toNat ≤ 1024) :
    t.wptr.toNat ≤ 1024 := by
  cases i with
  | loadbyte d =>
    obtain ⟨hw, rfl⟩ | ⟨-, rfl⟩ := exec_loadbyte_cases h
    · rw [State.respond_wptr, State.appendByte_wptr, wptr_succ_toNat hw]
      omega
    · exact hs
  | loadstart => cases h; exact Nat.zero_le _
  | _ => cases h; exact hs

theorem execWord_wptr_le {w : Word} {s t : State} (h : execWord w s = .next t) (hs : s.wptr.toNat ≤ 1024) :
    t.wptr.toNat ≤ 1024 := by
  obtain ⟨i, -, -, he⟩ | ⟨-, -, rfl⟩ := execWord_cases h
  · exact exec_wptr_le he hs
  · exact hs

/-! TRUNC (R24) -/

/-- LOADSTART and CLRSTAT apart, a command sets TRUNC iff it is a LOADBYTE that is dropped, and none clears it. -/
theorem exec_trunc {i : Instr} {s t : State} (h : exec i s = .next t) (hi : i ≠ .loadstart ∧ i ≠ .clrstat) :
    t.trunc = true ↔ s.trunc = true ∨ (∃ d, i = .loadbyte d) ∧ 1024 ≤ s.wptr.toNat := by
  cases i with
  | loadbyte d =>
    obtain ⟨hw, rfl⟩ | ⟨hw, rfl⟩ := exec_loadbyte_cases h
    · simp [Nat.not_le.2 hw]
    · simp [hw]
  | loadstart => exact absurd rfl hi.1
  | clrstat => exact absurd rfl hi.2
  | _ => cases h; simp

theorem execWord_trunc {w : Word} {s t : State} (h : execWord w s = .next t)
    (hw : decode w ≠ .ok .loadstart ∧ decode w ≠ .ok .clrstat) :
    t.trunc = true ↔ s.trunc = true ∨ (∃ d, decode w = .ok (.loadbyte d)) ∧ 1024 ≤ s.wptr.toNat := by
  obtain ⟨i, hd, -, he⟩ | ⟨⟨r, hd⟩, -, rfl⟩ := execWord_cases h
  · rw [exec_trunc he ⟨fun hi => hw.1 (hi ▸ hd), fun hi => hw.2 (hi ▸ hd)⟩]
    simp [hd]
  · simp [hd]

/-- Some word of the run is a LOADBYTE executed at WPTR = 1024. -/
def DropsAByte (ws : List Word) (s : State) : Prop :=
  ∃ before w after v d, ws = before ++ w :: after ∧ decode w = .ok (.loadbyte d) ∧ execWords before s = .next v ∧
    v.wptr.toNat = 1024

theorem not_dropsAByte_nil (s : State) : ¬ DropsAByte [] s := by
  rintro ⟨before, w, after, -, -, h, -⟩
  exact List.append_ne_nil_of_right_ne_nil before (List.cons_ne_nil w after) h.symm

theorem dropsAByte_cons_iff {w : Word} {s u : State} (h : execWord w s = .next u) (ws : List Word) :
    DropsAByte (w :: ws) s ↔ ((∃ d, decode w = .ok (.loadbyte d)) ∧ s.wptr.toNat = 1024) ∨ DropsAByte ws u := by
  constructor
  · rintro ⟨before, x, after, v, d, heq, hd, hv, hfull⟩
    cases before with
    | nil =>
      cases heq
      cases hv
      exact .inl ⟨⟨d, hd⟩, hfull⟩
    | cons y before =>
      cases heq
      exact .inr ⟨before, x, after, v, d, rfl, hd, execWords_cons_of_next h before ▸ hv, hfull⟩
  · rintro (⟨⟨d, hd⟩, hfull⟩ | ⟨before, x, after, v, d, rfl, hd, hv, hfull⟩)
    · exact ⟨[], w, ws, s, d, rfl, hd, rfl, hfull⟩
    · exact ⟨w :: before, x, after, v, d, rfl, hd, (execWords_cons_of_next h before).trans hv, hfull⟩

theorem execWords_trunc {ws : List Word} {s t : State} (h : execWords ws s = .next t) (hs : s.wptr.toNat ≤ 1024)
    (hws : ∀ w ∈ ws, decode w ≠ .ok .loadstart ∧ decode w ≠ .ok .clrstat) :
    t.trunc = true ↔ s.trunc = true ∨ DropsAByte ws s := by
  induction ws generalizing s with
  | nil => cases h; simp [not_dropsAByte_nil]
  | cons w ws ih =>
    obtain ⟨u, hu, hrest⟩ := execWords_cons_inv h
    rw [List.forall_mem_cons] at hws
    have hfull : 1024 ≤ s.wptr.toNat ↔ s.wptr.toNat = 1024 := by omega
    rw [ih hrest (execWord_wptr_le hu hs) hws.2, execWord_trunc hu hws.1, hfull, dropsAByte_cons_iff hu, or_assoc]

/-! FB, CFG and WPTR do not depend on ILL or TRUNC (R25) -/

/-- The same FB, CFG and WPTR, whatever the flags and the port are. -/
def SameBuffer (s t : State) : Prop :=
  t.fb = s.fb ∧ t.invert = s.invert ∧ t.bitOrder = s.bitOrder ∧ t.wptr = s.wptr

theorem SameBuffer.displayedPixel {s s' : State} (h : SameBuffer s s') (x : Column) (y : PixelRow) :
    s'.displayedPixel x y = s.displayedPixel x y := by
  obtain ⟨hfb, hinv, hord, -⟩ := h
  rw [State.displayedPixel_eq, State.displayedPixel_eq, hfb, hinv, hord]

theorem SameBuffer.cfgWord {s s' : State} (h : SameBuffer s s') : s'.cfgWord = s.cfgWord := by
  obtain ⟨-, hinv, hord, -⟩ := h
  rw [State.cfgWord, hinv, hord, State.cfgWord]

theorem exec_keeps_sameBuffer {i : Instr} {s s' t t' : State} (hs : SameBuffer s s') (h : exec i s = .next t)
    (h' : exec i s' = .next t') : SameBuffer t t' := by
  obtain ⟨hfb, hinv, hord, hptr⟩ := id hs
  cases i with
  | loadbyte d =>
    obtain ⟨hw, rfl⟩ | ⟨hw, rfl⟩ := exec_loadbyte_cases h <;>
      obtain ⟨hw', rfl⟩ | ⟨hw', rfl⟩ := exec_loadbyte_cases h'
    · exact ⟨by simp [hfb, hptr], hinv, hord, by simp [hptr]⟩
    · rw [hptr] at hw'; omega
    · rw [hptr] at hw'; omega
    · exact hs
  | loadstart => cases h; cases h'; exact ⟨rfl, hinv, hord, rfl⟩
  | wrbyte a d => cases h; cases h'; exact ⟨by simp [hfb], hinv, hord, hptr⟩
  | wrcfg o v => cases h; cases h'; exact ⟨hfb, rfl, rfl, hptr⟩
  | _ => cases h; cases h'; exact hs

/-- Only RDSTAT's response shows more than FB, CFG and WPTR. -/
theorem exec_sameBuffer_pending {i : Instr} {s s' t t' : State} (hs : SameBuffer s s') (hp : s'.pending = s.pending)
    (h : exec i s = .next t) (h' : exec i s' = .next t') (hi : i ≠ .rdstat) : t'.pending = t.pending := by
  cases i with
  | loadbyte d =>
    obtain ⟨-, rfl⟩ | ⟨-, rfl⟩ := exec_loadbyte_cases h <;>
      obtain ⟨-, rfl⟩ | ⟨-, rfl⟩ := exec_loadbyte_cases h' <;> simp [hp]
  | rdstat => exact absurd rfl hi
  | rdbyte a => cases h; cases h'; simp [hp, hs.1]
  | rdpix x y => cases h; cases h'; simp [hp, hs.displayedPixel]
  | rdstrip x p => cases h; cases h'; simp [hp, State.stripByte, hs.displayedPixel]
  | rdrow8 g y => cases h; cases h'; simp [hp, State.rowByte, hs.displayedPixel]
  | rdcfg => cases h; cases h'; simp [hp, hs.cfgWord]
  | _ => cases h; cases h'; simp [hp]

theorem execWord_sameBuffer {w : Word} {s s' t t' : State} (hs : SameBuffer s s') (h : execWord w s = .next t)
    (h' : execWord w s' = .next t') :
    SameBuffer t t' ∧ (s'.pending = s.pending → decode w ≠ .ok .rdstat → t'.pending = t.pending) := by
  cases hd : decode w with
  | ok i =>
    rw [execWord_of_ok hd] at h h'
    exact ⟨exec_keeps_sameBuffer hs h h', fun hp hw => exec_sameBuffer_pending hs hp h h' fun hi => hw (hi ▸ rfl)⟩
  | error r =>
    rw [execWord_of_error hd] at h h'
    cases h
    cases h'
    exact ⟨hs, fun hp _ => by simp [hp]⟩

theorem execWords_keeps_sameBuffer {ws : List Word} {s s' t t' : State} (hs : SameBuffer s s')
    (h : execWords ws s = .next t) (h' : execWords ws s' = .next t') : SameBuffer t t' := by
  induction ws generalizing s s' with
  | nil => cases h; cases h'; exact hs
  | cons w ws ih =>
    obtain ⟨u, hu, hrest⟩ := execWords_cons_inv h
    obtain ⟨u', hu', hrest'⟩ := execWords_cons_inv h'
    exact ih (execWord_sameBuffer hs hu hu').1 hrest hrest'

/-! FULL (R25) -/

theorem State.full_iff (s : State) : s.full = true ↔ s.wptr.toNat = 1024 := by
  rw [State.full, beq_iff_eq, ← BitVec.toNat_inj]
  rfl

end Sys2Proof.Machine
end

section
/-! The statements of 10_state.md. -/

namespace Sys2Proof.Machine

/-- Settles O43: each word sets ILL iff it is illegal and none but CLRSTAT clears it, by induction over the run. -/
theorem illRecordsIllegalCommands : Obligations.IllRecordsIllegalCommands := by
  refine ⟨fun s ws hws => ?_, fun s ws hws => ?_, fun s => ⟨_, exec_rdstat s, rfl⟩⟩
  · have hclr : execWord (encode .clrstat) s = .next (s.clearFlags.respond ackResponse) := rfl
    rw [execWords_cons_of_next hclr]
    exact execWords_records_illegal rfl ws hws
  · exact execWords_records_illegal rfl ws hws

/-- Settles O44: the three starting events leave TRUNC clear and WPTR at most 1024, and `execWords_trunc` follows TRUNC
over the run; FB follows from the buffer's simulation, which does not see TRUNC. -/
theorem truncRecordsDroppedBytes : Obligations.TruncRecordsDroppedBytes := by
  refine ⟨fun s u ws hs hu hws => ?_, fun s b ws => ?_⟩
  · have hstart : u.trunc = false ∧ u.wptr.toNat ≤ 1024 := by
      rcases hu with rfl | hu | hu
      · exact ⟨rfl, Nat.zero_le _⟩
      · cases hu; exact ⟨rfl, Nat.zero_le _⟩
      · cases hu; exact ⟨rfl, hs⟩
    obtain ⟨htrunc, hptr⟩ := hstart
    obtain ⟨t, ht⟩ := execWords_next ws u
    refine ⟨t, ht, ?_⟩
    rw [execWords_trunc ht hptr hws, htrunc]
    exact or_iff_right Bool.false_ne_true
  · obtain ⟨t, ht⟩ := execWords_next ws s
    obtain ⟨t', ht'⟩ := execWords_next ws { s with trunc := b }
    have hs : SameBuffer s { s with trunc := b } := ⟨rfl, rfl, rfl, rfl⟩
    obtain ⟨hfb, -⟩ := execWords_keeps_sameBuffer hs ht ht'
    exact ⟨t, t', ht, ht', hfb⟩

/-- Settles O45: the two states have the same FB, CFG and WPTR, and no command looks further but RDSTAT. -/
theorem flagsSteerNothing : Obligations.FlagsSteerNothing := by
  refine ⟨State.full_iff, fun w s a b => ?_, fun w s hw => ?_, fun w s => ?_⟩
  · obtain ⟨t, ht⟩ := execWord_next w s
    obtain ⟨t', ht'⟩ := execWord_next w { s with ill := a, trunc := b }
    have hs : SameBuffer s { s with ill := a, trunc := b } := ⟨rfl, rfl, rfl, rfl⟩
    obtain ⟨⟨hfb, hinv, hord, hptr⟩, hrsp⟩ := execWord_sameBuffer hs ht ht'
    exact ⟨t, t', ht, ht', hfb, hinv, hord, hptr, hrsp rfl⟩
  · obtain ⟨r, hd⟩ := (isLegal_eq_false_iff w).1 hw
    exact ⟨_, execWord_of_error hd s, rfl⟩
  · obtain ⟨t, ht⟩ := execWord_next w s
    refine ⟨t, ht, fun hne => ?_⟩
    by_contra hnone
    obtain ⟨hstart, hclr, hdrop⟩ := not_or.1 hnone |>.imp_right not_or.1
    exact hne (Bool.eq_iff_iff.2 ((execWord_trunc ht ⟨hstart, hclr⟩).trans (or_iff_left hdrop)))

/-- Settles O19: an unlisted cell reads 0x00, and the words of CFG and STATUS are evaluated at the reset values. -/
theorem resetStateHoldsTheResetValues : Obligations.ResetStateHoldsTheResetValues :=
  ⟨Memory.read_nil, rfl, rfl, rfl, rfl, rfl, by decide, by decide, by decide⟩

end Sys2Proof.Machine
end

section
/-! SUPPORT. The page and the column of an FB address as numbers (R31); the other maps of the layout have their lemmas
under Laws. -/

namespace Sys2Proof.Machine

theorem pageOfAddr_toNat (a : FbAddr) : (pageOfAddr a).toNat = a.toNat / 128 := by
  have h : a.toNat / 128 < 8 := by omega
  simpa [pageOfAddr, Nat.shiftRight_eq_div_pow] using h

theorem columnOfAddr_toNat (a : FbAddr) : (columnOfAddr a).toNat = a.toNat % 128 := by
  simp [columnOfAddr]

end Sys2Proof.Machine
end

section
/-! The statement of 20_memory.md on the layout of FB. -/

namespace Sys2Proof.Machine

/-- Settles O29: each map of the layout is a quotient, a remainder or `p * n + x`, so the maps are inverse because division
with remainder is. -/
theorem pageLayoutOfAddresses : Obligations.PageLayoutOfAddresses := by
  refine ⟨fun p x => ⟨stripAddr_toNat p x, ?_, ?_⟩,
    fun a => ⟨pageOfAddr_toNat a, columnOfAddr_toNat a, ?_⟩,
    fun p r => ⟨rowOfPage_toNat p r, ?_, ?_⟩⟩ <;> apply BitVec.eq_of_toNat_eq
  · rw [pageOfAddr_toNat, stripAddr_toNat]
    omega
  · rw [columnOfAddr_toNat, stripAddr_toNat]
    omega
  · rw [stripAddr_toNat, pageOfAddr_toNat, columnOfAddr_toNat, Nat.div_add_mod']
  · rw [pageOfRow_toNat, rowOfPage_toNat]
    omega
  · rw [rowInPage_toNat, rowOfPage_toNat]
    omega

end Sys2Proof.Machine
end

section
/-! SUPPORT. Decoder and encoder are each other's inverse (R57): a word is its opcode, its reserved bits and its fields,
and a field is read back from where it was placed. -/

namespace Sys2Proof

/-! A word and its fields -/

/-- A field read from bits that another field does not reach is 0. -/
theorem extractLsb'_placed_of_disjoint {n : Nat} (v : BitVec n) {lo lo' m : Nat} (h : lo + n ≤ 32)
    (hd : lo' + m ≤ lo ∨ lo + n ≤ lo') : (placed v lo).extractLsb' lo' m = 0#m := by
  apply BitVec.eq_of_getLsbD_eq
  intro k hk
  rcases hd with hd | hd
  · simp [getLsbD_placed v h, show ¬ lo ≤ lo' + k by omega]
  · simp [getLsbD_placed v h, BitVec.getLsbD_of_ge v (lo' + k - lo) (by omega)]

/-- The bits of a field that is 0. -/
theorem getLsbD_of_extractLsb'_eq_zero {w : Word} {lo m : Nat} (h : w.extractLsb' lo m = 0#m) {k : Nat} (hk : k < m) :
    w.getLsbD (lo + k) = false := by
  simpa [hk] using congrArg (BitVec.getLsbD · k) h

/-- Under a field's mask a word is that field in its place. -/
theorem and_placed_allOnes (w : Word) {n lo : Nat} (h : lo + n ≤ 32) :
    w &&& placed (BitVec.allOnes n) lo = placed (w.extractLsb' lo n) lo :=
  (and_placed_allOnes_eq_iff w _ h).2 rfl

/-! A word whose reserved bits are clear is its opcode and its fields, one lemma per number of fields in the format -/

section
variable {w reserved : Word} {op : Nat}

theorem eq_opcode_or_of_reserved {fields : Word} (hop : (opcodeOf w).toNat = op) (hres : w &&& reserved = 0#32)
    (hall : 0xF0000000#32 ||| reserved ||| fields = BitVec.allOnes 32) :
    placed (BitVec.ofNat 4 op) 28 ||| w &&& fields = w := by
  have hw : w &&& 0xF0000000#32 = placed (BitVec.ofNat 4 op) 28 := by
    rw [← hop, BitVec.ofNat_toNat, BitVec.setWidth_eq]
    exact and_placed_allOnes w (n := 4) (lo := 28) (by decide)
  calc placed (BitVec.ofNat 4 op) 28 ||| w &&& fields
      = w &&& (0xF0000000#32 ||| reserved ||| fields) := by
        rw [BitVec.and_or_distrib_left, BitVec.and_or_distrib_left, hres, hw, BitVec.or_zero]
    _ = w := by rw [hall, BitVec.and_allOnes]

theorem eq_of_no_field (hop : (opcodeOf w).toNat = op) (hres : w &&& reserved = 0#32)
    (hall : 0xF0000000#32 ||| reserved = BitVec.allOnes 32 := by decide) : placed (BitVec.ofNat 4 op) 28 = w := by
  simpa using eq_opcode_or_of_reserved (fields := 0#32) hop hres (by rw [hall, BitVec.or_zero])

theorem eq_of_one_field (hop : (opcodeOf w).toNat = op) (hres : w &&& reserved = 0#32) (n lo : Nat)
    (h : lo + n ≤ 32 := by decide)
    (hall : 0xF0000000#32 ||| reserved ||| placed (BitVec.allOnes n) lo = BitVec.allOnes 32 := by decide) :
    placed (BitVec.ofNat 4 op) 28 ||| placed (w.extractLsb' lo n) lo = w := by
  rw [← and_placed_allOnes w h]
  exact eq_opcode_or_of_reserved hop hres hall

theorem eq_of_two_fields (hop : (opcodeOf w).toNat = op) (hres : w &&& reserved = 0#32) (m hi n lo : Nat)
    (h : hi + m ≤ 32 := by decide) (h' : lo + n ≤ 32 := by decide)
    (hall : 0xF0000000#32 ||| reserved ||| (placed (BitVec.allOnes m) hi ||| placed (BitVec.allOnes n) lo) =
      BitVec.allOnes 32 := by decide) :
    placed (BitVec.ofNat 4 op) 28 ||| placed (w.extractLsb' hi m) hi ||| placed (w.extractLsb' lo n) lo = w := by
  rw [BitVec.or_assoc, ← and_placed_allOnes w h, ← and_placed_allOnes w h', ← BitVec.and_or_distrib_left]
  exact eq_opcode_or_of_reserved hop hres hall

end

/-! The order operand and its bit -/

@[simp] theorem BitOrder.bit_ofBit (b : Bool) : (BitOrder.ofBit b).bit = b := by cases b <;> rfl

@[simp] theorem BitOrder.ofBit_bit (o : BitOrder) : BitOrder.ofBit o.bit = o := by cases o <;> rfl

theorem extractLsb'_one (w : Word) (lo : Nat) : w.extractLsb' lo 1 = BitVec.ofBool (w.getLsbD lo) := by
  apply BitVec.eq_of_getLsbD_eq
  intro k hk
  obtain rfl : k = 0 := by omega
  simp

/-! Decode and encode -/

/-- A decoded word is its opcode and its fields, and so the word of its command. -/
theorem encode_of_decode {w : Word} {i : Instr} (h : decode w = .ok i) : encode i = w := by
  unfold decode at h
  split at h
  case h_13 => cases h
  all_goals
    obtain ⟨hres, rfl⟩ := checkedInstr_eq_ok_iff.1 h
    rename_i hop
  case h_1 | h_2 | h_10 | h_11 | h_12 => exact (eq_of_no_field hop ((reservedClearN_iff w).1 hres) :)
  case h_3 => exact (eq_of_one_field hop ((reservedClearD_iff w).1 hres) 8 0 :)
  case h_4 => exact (eq_of_two_fields hop ((reservedClearAD_iff w).1 hres) 10 16 8 0 :)
  case h_5 => exact (eq_of_one_field hop ((reservedClearA_iff w).1 hres) 10 16 :)
  case h_6 => exact (eq_of_two_fields hop ((reservedClearXY_iff w).1 hres) 6 8 7 0 :)
  case h_7 => exact (eq_of_two_fields hop ((reservedClearXP_iff w).1 hres) 3 8 7 0 :)
  case h_8 => exact (eq_of_two_fields hop ((reservedClearGY_iff w).1 hres) 6 8 4 0 :)
  case h_9 =>
    rw [encode, orderField, BitOrder.bit_ofBit, invField, ← extractLsb'_one, ← extractLsb'_one]
    exact (eq_of_two_fields hop ((reservedClearC_iff w).1 hres) 1 1 1 0 :)

/-- No bit of an operand is dropped: each field is read back, and no field reaches the opcode or a reserved bit. -/
theorem decode_encode (i : Instr) : decode (encode i) = .ok i := by
  cases i with
  | wrcfg o v => cases o <;> cases v <;> rfl
  | nop | loadstart | rdcfg | rdstat | clrstat => rfl
  | _ =>
    simp (disch := omega) [decode, encode, opcodeOf, checkedInstr, reservedClearD, reservedClearAD, reservedClearA,
      reservedClearXY, reservedClearXP, reservedClearGY, dataField, addrField, xField, yField, pageField, groupField,
      BitVec.extractLsb'_or, extractLsb'_placed, extractLsb'_placed_of_disjoint]

end Sys2Proof
end

section
/-! SUPPORT. The command of a word as an assembler line (R53, R57). -/

namespace Sys2Proof.Machine

/-- The operands of a command are in range: they have the widths of their fields (R48). -/
theorem wellFormed_stmtOfInstr (i : Instr) : (stmtOfInstr i).wellFormed = true := by
  cases i with
  | wrcfg o v => cases o <;> cases v <;> rfl
  | _ => simp [stmtOfInstr, Stmt.wellFormed] <;> omega

theorem stmtWords_stmtOfInstr (i : Instr) : stmtWords (stmtOfInstr i) = [encode i] := by
  cases i with
  | wrcfg o v => cases o <;> cases v <;> rfl
  | _ => simp [stmtOfInstr, stmtWords]

theorem assemble_stmtOfInstr (i : Instr) : assemble (stmtOfInstr i) = .ok [encode i] := by
  rw [assemble_of_wellFormed (wellFormed_stmtOfInstr i), stmtWords_stmtOfInstr]

/-- The line of a command assembles to a word that decodes to the command. -/
theorem assemble_decode_of_stmtOfInstr {i : Instr} {st : Stmt} (h : stmtOfInstr i = st) :
    ∃ w j, assemble st = .ok [w] ∧ decode w = .ok j ∧ stmtOfInstr j = st :=
  ⟨encode i, i, h ▸ assemble_stmtOfInstr i, decode_encode i, h⟩

end Sys2Proof.Machine
end

section
/-! SUPPORT. The rows of the opcode map: each covers the words of its opcode whose bits below bit 28 agree with its mask
(R50, R51), and the words they cover are as many as the commands. -/

namespace Sys2Proof

theorem isLegal_iff_exists_row (w : Word) : isLegal w = true ↔ ∃ r ∈ opcodeTable, w &&& r.mask = r.pattern := by
  simp [isLegal, OpcodeRow.covers]

/-- A word is its opcode and its bits below bit 28. -/
theorem word_eq_iff (u v : Word) : u = v ↔ opcodeOf u = opcodeOf v ∧ u &&& 0x0FFFFFFF#32 = v &&& 0x0FFFFFFF#32 := by
  refine ⟨fun h => by simp [h], fun ⟨hop, hlow⟩ => ?_⟩
  have split (w : Word) : placed (BitVec.ofNat 4 (opcodeOf w).toNat) 28 ||| w &&& 0x0FFFFFFF#32 = w :=
    eq_opcode_or_of_reserved (reserved := 0#32) rfl BitVec.and_zero (by decide)
  rw [← split u, ← split v, hop, hlow]

/-- Every row fixes the opcode by its mask, and asks for 0 in every other bit of it. -/
theorem opcodeTable_rows : ∀ r ∈ opcodeTable, opcodeOf r.mask = 0xF ∧ (opcodeOf r.pattern).toNat < 12 ∧
    r.pattern &&& 0x0FFFFFFF#32 = 0#32 := by
  decide

theorem opcodeTable_pairwise : opcodeTable.Pairwise fun r q => opcodeOf r.pattern ≠ opcodeOf q.pattern := by
  decide

theorem row_eq_of_opcode {r q : OpcodeRow} (hr : r ∈ opcodeTable) (hq : q ∈ opcodeTable)
    (h : opcodeOf r.pattern = opcodeOf q.pattern) : r = q :=
  List.inj_on_of_nodup_map (List.pairwise_map.2 opcodeTable_pairwise) hr hq h

theorem exists_row_of_opcode : ∀ op : BitVec 4, op.toNat < 12 → ∃ r ∈ opcodeTable, opcodeOf r.pattern = op := by
  decide

/-- What it takes to match a row: its opcode, and no 1 in a bit its mask covers below bit 28. -/
theorem row_matches_iff {r : OpcodeRow} (hr : r ∈ opcodeTable) (w : Word) : w &&& r.mask = r.pattern ↔
    opcodeOf r.pattern = opcodeOf w ∧ w &&& r.mask &&& 0x0FFFFFFF#32 = 0#32 := by
  obtain ⟨hmask, -, hlow⟩ := opcodeTable_rows r hr
  have hop : opcodeOf (w &&& r.mask) = opcodeOf w := by
    rw [opcodeOf, BitVec.extractLsb'_and]
    exact (congrArg (opcodeOf w &&& ·) hmask).trans BitVec.and_allOnes
  rw [word_eq_iff, hop, hlow, eq_comm (a := opcodeOf w)]

theorem row_eq_of_matches {w : Word} {r q : OpcodeRow} (hr : r ∈ opcodeTable) (hq : q ∈ opcodeTable)
    (hwr : w &&& r.mask = r.pattern) (hwq : w &&& q.mask = q.pattern) : r = q :=
  row_eq_of_opcode hr hq
    (((row_matches_iff hr w).1 hwr).1.trans ((row_matches_iff hq w).1 hwq).1.symm)

/-- R51: the two kinds of illegal word. -/
theorem isLegal_eq_false_iff_opcode_or_reserved (w : Word) : isLegal w = false ↔ 12 ≤ (opcodeOf w).toNat ∨
    ∃ r ∈ opcodeTable, opcodeOf r.pattern = opcodeOf w ∧ w &&& r.mask &&& 0x0FFFFFFF#32 ≠ 0 := by
  rw [← Bool.not_eq_true, isLegal_iff_exists_row]
  constructor
  · intro hnone
    refine or_iff_not_imp_left.2 fun hop => ?_
    obtain ⟨r, hr, hrow⟩ := exists_row_of_opcode (opcodeOf w) (Nat.not_le.1 hop)
    exact ⟨r, hr, hrow, fun hres => hnone ⟨r, hr, (row_matches_iff hr w).2 ⟨hrow, hres⟩⟩⟩
  · rintro hkind ⟨q, hq, hmatch⟩
    obtain ⟨hqop, hqres⟩ := (row_matches_iff hq w).1 hmatch
    rcases hkind with hop | ⟨r, hr, hrow, hres⟩
    · obtain ⟨-, hlt, -⟩ := opcodeTable_rows q hq
      rw [hqop] at hlt
      omega
    · obtain rfl := row_eq_of_opcode hr hq (hrow.trans hqop.symm)
      exact hres hqres

/-- The word of a command is matched by the row of its mnemonic. -/
theorem encode_matches_row (i : Instr) : Laws.EncodeMatchesRow.Statement i := by
  cases i with
  | nop => exact Laws.EncodeMatchesRow.nop
  | loadstart => exact Laws.EncodeMatchesRow.loadstart
  | loadbyte d => exact Laws.EncodeMatchesRow.loadbyte d
  | wrbyte a d => exact Laws.EncodeMatchesRow.wrbyte a d
  | rdbyte a => exact Laws.EncodeMatchesRow.rdbyte a
  | rdpix x y => exact Laws.EncodeMatchesRow.rdpix x y
  | rdstrip x p => exact Laws.EncodeMatchesRow.rdstrip x p
  | rdrow8 g y => exact Laws.EncodeMatchesRow.rdrow8 g y
  | wrcfg o v => exact Laws.EncodeMatchesRow.wrcfg o v
  | rdcfg => exact Laws.EncodeMatchesRow.rdcfg
  | rdstat => exact Laws.EncodeMatchesRow.rdstat
  | clrstat => exact Laws.EncodeMatchesRow.clrstat

theorem isLegal_encode (i : Instr) : isLegal (encode i) = true :=
  (isLegal_iff_decode_ok _).2 ⟨i, decode_encode i⟩

theorem encode_injective : Function.Injective encode := fun i j h => by
  simpa [decode_encode] using congrArg decode h

/-- The commands are the legal words. -/
theorem encode_bijective :
    Function.Bijective fun i : Instr => (⟨encode i, isLegal_encode i⟩ : {w : Word // isLegal w = true}) := by
  refine ⟨fun i j h => encode_injective (congrArg Subtype.val h), ?_⟩
  rintro ⟨w, hw⟩
  obtain ⟨i, hi⟩ := (isLegal_iff_decode_ok w).1 hw
  exact ⟨i, Subtype.ext (encode_of_decode hi)⟩

theorem card_bitVec (n : Nat) : Nat.card (BitVec n) = 2 ^ n := by
  rw [Nat.card_congr BitVec.equivFin.toEquiv, Nat.card_fin]

/-- An order is its bit (R18). -/
def orderBit : BitOrder ≃ Bool := ⟨BitOrder.bit, BitOrder.ofBit, BitOrder.ofBit_bit, BitOrder.bit_ofBit⟩

theorem card_bitOrder : Nat.card BitOrder = 2 := by
  rw [Nat.card_congr orderBit, Nat.card_eq_fintype_card, Fintype.card_bool]

theorem card_sigma_const (α β : Type) : Nat.card ((_ : α) × β) = Nat.card α * Nat.card β := by
  rw [Nat.card_congr (Equiv.sigmaEquivProd α β), Nat.card_prod]

/-- A command is one of 12, in the order of the constructors, with its operands. -/
def instrOfOperands :
    Unit ⊕ Unit ⊕ Byte ⊕ ((_ : FbAddr) × Byte) ⊕ FbAddr ⊕ ((_ : Column) × PixelRow) ⊕
      ((_ : Column) × Page) ⊕ ((_ : BitVec 4) × PixelRow) ⊕ ((_ : BitOrder) × Bool) ⊕ Unit ⊕ Unit ⊕ Unit ≃ Instr :=
  proxy_equiv% Instr

theorem card_instr : Nat.card Instr = 273673 := by
  have : Finite BitOrder := .of_equiv Bool orderBit.symm
  rw [← Nat.card_congr instrOfOperands]
  simp only [Nat.card_sum, card_sigma_const, card_bitVec, card_bitOrder, Nat.card_unique,
    Nat.card_eq_fintype_card (α := Bool), Fintype.card_bool]
  norm_num

/-- R51: as many words are legal as there are commands. -/
theorem card_legal_words : Nat.card {w : Word // isLegal w = true} = 273673 := by
  rw [← Nat.card_congr (Equiv.ofBijective _ encode_bijective), card_instr]

end Sys2Proof
end

section
/-! SUPPORT. The response of each command as a word, and which of its bits can be 1 (R44). -/

namespace Sys2Proof.Machine

/-- The response word of each command in a state (R58 to R61, R67 to R69, R73 to R77). -/
def State.responseTo (s : State) : Instr → Word
  | .nop | .loadstart | .loadbyte _ | .wrbyte _ _ | .wrcfg _ _ | .clrstat => ackResponse
  | .rdbyte a => zext32 (s.fbRead a)
  | .rdpix x y => zext32 (BitVec.ofBool (s.displayedPixel x y))
  | .rdstrip x p => zext32 (s.stripByte x p)
  | .rdrow8 g y => zext32 (s.rowByte g y)
  | .rdcfg => s.cfgWord
  | .rdstat => s.statusWord

/-- Every command completes and appends exactly its response. -/
theorem exec_answers (i : Instr) (s : State) :
    ∃ t, exec i s = .next t ∧ t.pending = s.pending ++ [s.responseTo i] := by
  obtain ⟨t, ht⟩ := exec_next i s
  refine ⟨t, ht, ?_⟩
  cases i with
  | loadbyte d => obtain ⟨-, rfl⟩ | ⟨-, rfl⟩ := exec_loadbyte_cases ht <;> rfl
  | _ => cases ht; rfl

theorem zext32_eq_placed {n : Nat} (v : BitVec n) : zext32 v = placed v 0 := (BitVec.shiftLeft_zero _).symm

theorem State.statusWord_eq_placed (s : State) : s.statusWord = placed s.wptr 16 |||
    placed (BitVec.ofBool s.full) 2 ||| placed (BitVec.ofBool s.trunc) 1 ||| placed (BitVec.ofBool s.ill) 0 := rfl

theorem State.cfgWord_eq_placed (s : State) : s.cfgWord = placed (BitVec.ofBool s.bitOrder.bit) 1 |||
    placed (BitVec.ofBool s.invert) 0 := rfl

/-- The bits of a response above its value are 0. -/
theorem extractLsb'_zext32 {n : Nat} (v : BitVec n) {lo m : Nat} (h : n ≤ lo) (hn : n ≤ 32) :
    (zext32 v).extractLsb' lo m = 0#m := by
  rw [zext32_eq_placed]
  exact extractLsb'_placed_of_disjoint v (by omega) (.inr (by omega))

theorem State.cfgWord_unused_bits (s : State) : s.cfgWord.extractLsb' 2 30 = 0#30 := by
  simp (disch := decide) [State.cfgWord_eq_placed, BitVec.extractLsb'_or, extractLsb'_placed_of_disjoint]

theorem State.statusWord_unused_bits (s : State) :
    s.statusWord.extractLsb' 3 13 = 0#13 ∧ s.statusWord.extractLsb' 27 5 = 0#5 := by
  simp (disch := decide) [State.statusWord_eq_placed, BitVec.extractLsb'_or, extractLsb'_placed_of_disjoint]

/-- ERR is 0 in the response of a command. -/
theorem State.responseTo_err (s : State) (i : Instr) : (s.responseTo i).getLsbD 31 = false := by
  cases i with
  | rdbyte | rdstrip | rdrow8 =>
    exact getLsbD_of_extractLsb'_eq_zero (extractLsb'_zext32 _ (lo := 8) (m := 24) (by decide) (by decide)) (k := 23)
      (by decide)
  | rdpix =>
    exact getLsbD_of_extractLsb'_eq_zero (extractLsb'_zext32 _ (lo := 1) (m := 31) (by decide) (by decide)) (k := 30)
      (by decide)
  | rdcfg => exact getLsbD_of_extractLsb'_eq_zero s.cfgWord_unused_bits (k := 29) (by decide)
  | rdstat => exact getLsbD_of_extractLsb'_eq_zero s.statusWord_unused_bits.2 (k := 4) (by decide)
  | _ =>
    show ackResponse.getLsbD 31 = false
    decide

end Sys2Proof.Machine
end

section
/-! The statements of 30_encoding.md on the encoding of words and on the response of a command. -/

namespace Sys2Proof.Machine

/-- Settles O2: `encode` and `decode` are inverse on legal words, and an in-range operand is the number of the field it
is written to. -/
theorem encoderIdentityBothWays : Obligations.EncoderIdentityBothWays := by
  refine ⟨fun w hw => ?_, fun i => ⟨encode i, assemble_stmtOfInstr i, decode_encode i⟩, ?_⟩
  · obtain ⟨i, hi⟩ := (isLegal_iff_decode_ok w).1 hw
    have henc := encode_of_decode hi
    exact ⟨i, hi, henc, henc ▸ assemble_stmtOfInstr i⟩
  refine ⟨fun a d ha hd => ?_, fun d hd => ?_, fun a ha => ?_, fun x y hx hy => ?_, fun x p hx hp => ?_,
    fun g y hg hy => ?_, fun o v ho hv => ?_, fun st hst => ?_⟩
  · exact assemble_decode_of_stmtOfInstr (i := .wrbyte (.ofNat 10 a) (.ofNat 8 d)) (by simp [stmtOfInstr, ha, hd])
  · exact assemble_decode_of_stmtOfInstr (i := .loadbyte (.ofNat 8 d)) (by simp [stmtOfInstr, hd])
  · exact assemble_decode_of_stmtOfInstr (i := .rdbyte (.ofNat 10 a)) (by simp [stmtOfInstr, ha])
  · exact assemble_decode_of_stmtOfInstr (i := .rdpix (.ofNat 7 x) (.ofNat 6 y)) (by simp [stmtOfInstr, hx, hy])
  · exact assemble_decode_of_stmtOfInstr (i := .rdstrip (.ofNat 7 x) (.ofNat 3 p)) (by simp [stmtOfInstr, hx, hp])
  · exact assemble_decode_of_stmtOfInstr (i := .rdrow8 (.ofNat 4 g) (.ofNat 6 y)) (by simp [stmtOfInstr, hg, hy])
  · exact assemble_decode_of_stmtOfInstr (i := .wrcfg (.ofBit (o == 1)) (v == 1)) (by
      interval_cases o <;> interval_cases v <;> rfl)
  · simp only [List.mem_cons, List.not_mem_nil, or_false] at hst
    obtain rfl | rfl | rfl | rfl | rfl := hst
    · exact assemble_decode_of_stmtOfInstr (i := .nop) rfl
    · exact assemble_decode_of_stmtOfInstr (i := .loadstart) rfl
    · exact assemble_decode_of_stmtOfInstr (i := .rdcfg) rfl
    · exact assemble_decode_of_stmtOfInstr (i := .rdstat) rfl
    · exact assemble_decode_of_stmtOfInstr (i := .clrstat) rfl

/-- Settles O3: a row that matches a word has its opcode, no two rows share one, and a decoded word is the word of its
command, which the row of its mnemonic matches. -/
theorem legalExactlyWhenOneRowMatches : Obligations.LegalExactlyWhenOneRowMatches := by
  refine ⟨fun w => (isLegal_iff_decode_ok w).symm.trans (isLegal_iff_exists_row w), opcodeTable_pairwise,
    fun r hr => (opcodeTable_rows r hr).1, fun w r hr q hq => row_eq_of_matches hr hq, fun w i hi => ?_⟩
  obtain ⟨r, hr, hname, hcovers⟩ := encode_matches_row i
  rw [encode_of_decode hi, OpcodeRow.covers, beq_iff_eq] at hcovers
  exact ⟨r, hr, hcovers, hname⟩

/-- Settles O4: the row of a word's opcode is the only one that can match it; and the legal words are counted as the
commands they encode. -/
theorem illegalWordsAndTheCountOfLegalOnes : Obligations.IllegalWordsAndTheCountOfLegalOnes := by
  refine ⟨isLegal_eq_false_iff_opcode_or_reserved, fun w hw s => ?_, by norm_num, card_legal_words⟩
  obtain ⟨r, hr⟩ := (isLegal_eq_false_iff w).1 hw
  exact (execWord_of_error hr s).trans (raiseIllegalCommand_eq s)

/-- Settles O12: a legal word answers its command's response, in which ERR is 0, and an illegal one answers ERR. -/
theorem everyCommandAnswersExactlyOnce : Obligations.EveryCommandAnswersExactlyOnce := by
  refine ⟨fun w s => ?_, fun i s hi => ?_, fun i s hi => ?_, fun x y s => ?_, fun s => ?_, fun s => ?_⟩
  · obtain ⟨t, ht⟩ := execWord_next w s
    obtain ⟨i, -, hlegal, hexec⟩ | ⟨-, hillegal, rfl⟩ := execWord_cases ht
    · obtain ⟨u, hu, hpending⟩ := exec_answers i s
      cases hexec.symm.trans hu
      exact ⟨t, _, ht, hpending, by rw [s.responseTo_err i, hlegal]; decide⟩
    · exact ⟨_, _, ht, rfl, by simp [hillegal, errResponse]⟩
  · obtain ⟨t, ht, hpending⟩ := exec_answers i s
    refine ⟨t, (execWord_of_ok (decode_encode i) s).trans ht, hpending.trans ?_⟩
    simp only [List.mem_cons, List.not_mem_nil, or_false] at hi
    obtain (rfl | rfl | rfl) | ⟨d, rfl⟩ | ⟨a, d, rfl⟩ | ⟨o, v, rfl⟩ := hi <;> rfl
  · obtain ⟨t, ht, hpending⟩ := exec_answers i s
    refine ⟨t, _, ht, hpending, ?_⟩
    obtain ⟨a, rfl⟩ | ⟨x, p, rfl⟩ | ⟨g, y, rfl⟩ := hi <;> exact extractLsb'_zext32 _ (by decide) (by decide)
  · exact ⟨_, _, exec_rdpix x y s, rfl, extractLsb'_zext32 _ (by decide) (by decide)⟩
  · exact ⟨_, _, exec_rdcfg s, rfl, s.cfgWord_unused_bits⟩
  · exact ⟨_, _, exec_rdstat s, rfl, s.statusWord_unused_bits⟩

end Sys2Proof.Machine
end

section
/-! SUPPORT. What the exceptions line of a command's rule takes from the opcode map (R51, R80). -/

namespace Sys2Proof.Machine

theorem answersIllegal_of_not_legal {w : Word} (h : isLegal w = false) : AnswersIllegal w := fun s => by
  obtain ⟨r, hr⟩ := (isLegal_eq_false_iff w).1 h
  exact (execWord_of_error hr s).trans (raiseIllegalCommand_eq s)

/-- The reserved bits of a row are the bits its mask covers below bit 28. -/
theorem reservedBitsAreIllegal_of_row {r : OpcodeRow} (hr : r ∈ opcodeTable) :
    ReservedBitsAreIllegal (opcodeOf r.pattern) (r.mask &&& 0x0FFFFFFF#32) := fun w hop hres => by
  rw [← BitVec.and_assoc] at hres
  exact answersIllegal_of_not_legal
    ((isLegal_eq_false_iff_opcode_or_reserved w).2 (.inr ⟨r, hr, hop.symm, hres⟩))

end Sys2Proof.Machine
end

section
/-! SUPPORT. The load stream of R62: what FB, WPTR and TRUNC are after a LOADSTART and the LOADBYTEs of a list of bytes,
and that every word which writes FB in no other way keeps it so. -/

namespace Sys2Proof.Machine

/-! The commands among the words -/

theorem commandsOf_cons_of_ok {w : Word} {i : Instr} (h : decode w = .ok i) (ws : List Word) :
    commandsOf (w :: ws) = i :: commandsOf ws := by
  simp [commandsOf, h]

theorem commandsOf_cons_of_error {w : Word} {r : DecodeError} (h : decode w = .error r) (ws : List Word) :
    commandsOf (w :: ws) = commandsOf ws := by
  simp [commandsOf, h]

/-- The bytes of a list of commands, with the first command's before the others'. -/
theorem filterMap_loadedByte_cons (i : Instr) (is : List Instr) :
    (i :: is).filterMap loadedByte = (loadedByte i).toList ++ is.filterMap loadedByte := by
  cases h : loadedByte i <;> simp [h]

/-! The bytes of a parse -/

theorem getD_append_singleton (bs : List Byte) (d : Byte) (k : Nat) :
    (bs ++ [d]).getD k 0 = if k = bs.length then d else bs.getD k 0 := by
  rcases Nat.lt_trichotomy k bs.length with h | rfl | h
  · rw [List.getD_append _ _ _ _ h, if_neg h.ne]
  · simp
  · rw [if_neg h.ne', List.getD_eq_default _ _ h.le, List.getD_eq_default _ _ (by simpa using h)]

theorem length_parsedBuffer (bs : List Byte) : (parsedBuffer bs).length = 1024 := by
  rw [parsedBuffer, List.length_take, List.length_append, List.length_replicate]
  omega

theorem getElem_parsedBuffer (bs : List Byte) {k : Nat} (h : k < (parsedBuffer bs).length) :
    (parsedBuffer bs)[k] = bs.getD k 0 := by
  simp only [parsedBuffer, List.getElem_take, List.getElem_append, List.getElem_replicate]
  split
  · next hk => exact (List.getD_eq_getElem _ _ hk).symm
  · next hk => exact (List.getD_eq_default _ _ (Nat.not_lt.1 hk)).symm

/-! The buffer while bytes are loaded -/

/-- FB and WPTR as a load of the bytes `bs` leaves them: a byte past the end of the list is 0x00, and one past the end of
FB is nowhere. -/
def HoldsLoad (bs : List Byte) (s : State) : Prop :=
  s.wptr.toNat = min bs.length 1024 ∧ ∀ k < 1024, s.fb.read k = bs.getD k 0

/-- TRUNC as a load of the bytes `bs` leaves it. -/
def TruncTellsOverflow (bs : List Byte) (s : State) : Prop := s.trunc = true ↔ 1024 < bs.length

/-- A command that may stand in a load stream: it writes FB as a LOADBYTE or not at all (R62). -/
def NoOtherFbWrite (i : Instr) : Prop := i ≠ .loadstart ∧ ∀ a d, i ≠ .wrbyte a d

theorem HoldsLoad.map_read_eq_parsedBuffer {bs : List Byte} {s : State} (h : HoldsLoad bs s) :
    (List.range 1024).map s.fb.read = parsedBuffer bs := by
  refine List.ext_getElem ?_ fun k hk hk' => ?_
  · rw [List.length_map, List.length_range, length_parsedBuffer]
  · rw [List.getElem_map, List.getElem_range, getElem_parsedBuffer bs hk', h.2 k (length_parsedBuffer bs ▸ hk')]

/-- A LOADBYTE adds its byte to the bytes loaded: at WPTR, or past the end of FB where it is dropped. -/
theorem exec_loadbyte_holdsLoad {bs : List Byte} {d : Byte} {s t : State} (hs : HoldsLoad bs s)
    (h : exec (.loadbyte d) s = .next t) : HoldsLoad (bs ++ [d]) t := by
  obtain ⟨hptr, hfb⟩ := hs
  have hlen : (bs ++ [d]).length = bs.length + 1 := List.length_append
  obtain ⟨hw, rfl⟩ | ⟨hw, rfl⟩ := exec_loadbyte_cases h
  · have hend : s.wptr.toNat = bs.length := by omega
    refine ⟨?_, fun k hk => ?_⟩
    · rw [State.respond_wptr, State.appendByte_wptr, wptr_succ_toNat hw]
      omega
    · rw [State.respond_fb, State.appendByte_fb, Memory.read_write, wptr_addr_toNat hw, hfb k hk, hend,
        getD_append_singleton]
  · refine ⟨?_, fun k hk => ?_⟩
    · show s.wptr.toNat = _
      omega
    · rw [State.respond_fb, hfb k hk, List.getD_append _ _ _ _ (by omega)]

theorem exec_holdsLoad {bs : List Byte} {i : Instr} {s t : State} (hs : HoldsLoad bs s) (h : exec i s = .next t)
    (hi : NoOtherFbWrite i) : HoldsLoad (bs ++ (loadedByte i).toList) t := by
  cases i with
  | loadbyte d => exact exec_loadbyte_holdsLoad hs h
  | loadstart => exact absurd rfl hi.1
  | wrbyte a d => exact absurd rfl (hi.2 a d)
  | _ => cases h; rw [loadedByte, Option.toList_none, List.append_nil]; exact hs

theorem exec_truncTellsOverflow {bs : List Byte} {i : Instr} {s t : State} (hs : HoldsLoad bs s)
    (htr : TruncTellsOverflow bs s) (h : exec i s = .next t) (hi : NoOtherFbWrite i) (hclr : i ≠ .clrstat) :
    TruncTellsOverflow (bs ++ (loadedByte i).toList) t := by
  have hfull : 1024 ≤ s.wptr.toNat ↔ 1024 ≤ bs.length := by rw [hs.1]; omega
  unfold TruncTellsOverflow at htr ⊢
  rw [exec_trunc h ⟨hi.1, hclr⟩, htr, hfull]
  cases i with
  | loadbyte d =>
    have hlen : (bs ++ [d]).length = bs.length + 1 := List.length_append
    simp only [loadedByte, Option.toList_some, hlen, Instr.loadbyte.injEq, exists_eq', true_and]
    omega
  | _ => simp [loadedByte]

/-- A run of words that hold no other write to FB loads the bytes of its LOADBYTEs behind those already loaded. -/
theorem execWords_holdsLoad {ws : List Word} {bs : List Byte} {s t : State} (hs : HoldsLoad bs s)
    (h : execWords ws s = .next t) (hws : ∀ i ∈ commandsOf ws, NoOtherFbWrite i) :
    HoldsLoad (bs ++ (commandsOf ws).filterMap loadedByte) t ∧ (TruncTellsOverflow bs s →
      Instr.clrstat ∉ commandsOf ws → TruncTellsOverflow (bs ++ (commandsOf ws).filterMap loadedByte) t) := by
  induction ws generalizing s bs with
  | nil => cases h; simpa [commandsOf] using hs
  | cons w ws ih =>
    obtain ⟨u, hu, hrest⟩ := execWords_cons_inv h
    obtain ⟨i, hd, -, he⟩ | ⟨⟨r, hd⟩, -, rfl⟩ := execWord_cases hu
    · rw [commandsOf_cons_of_ok hd, filterMap_loadedByte_cons, ← List.append_assoc]
      rw [commandsOf_cons_of_ok hd, List.forall_mem_cons] at hws
      obtain ⟨hload, htrunc⟩ := ih (exec_holdsLoad hs he hws.1) hrest hws.2
      refine ⟨hload, fun htr hclr => ?_⟩
      obtain ⟨hi, hrestclr⟩ := List.ne_and_not_mem_of_not_mem_cons hclr
      exact htrunc (exec_truncTellsOverflow hs htr he hws.1 hi.symm) hrestclr
    · rw [commandsOf_cons_of_error hd] at hws ⊢
      exact ih (s := { s with ill := true }.respond errResponse) hs hrest hws

end Sys2Proof.Machine
end

section
/-! The statements of 40_buffer.md. -/

namespace Sys2Proof.Machine

/-- Settles O26: LOADSTART leaves the load of no bytes, and every later word of the stream adds the bytes it carries
(`execWords_holdsLoad`, by induction over the words). -/
theorem loadStreamEqualsParse : Obligations.LoadStreamEqualsParse := by
  rintro s ws bs hws rfl
  obtain ⟨u, hu⟩ := exec_next .loadstart s
  have hcleared : HoldsLoad [] u ∧ TruncTellsOverflow [] u := by
    cases hu
    exact ⟨⟨rfl, fun k _ => rfl⟩, by simp [TruncTellsOverflow]⟩
  obtain ⟨t, ht⟩ := execWords_next ws u
  obtain ⟨hload, htrunc⟩ := execWords_holdsLoad hcleared.1 ht hws
  rw [List.nil_append] at hload htrunc
  obtain ⟨hptr, hfb⟩ := id hload
  refine ⟨t, ?_, fun k b hk hb => ?_, fun k hlo hhi => ?_, hload.map_read_eq_parsedBuffer, hptr,
    htrunc hcleared.2⟩
  · rw [execWords_cons_of_next ((execWord_of_ok (decode_encode .loadstart) s).trans hu), ht]
  · rw [hfb k hk, List.getD_eq_getElem?_getD, hb, Option.getD_some]
  · rw [hfb k (by omega), List.getD_eq_default _ _ (by omega)]

/-- Settles O22: every field is the one `exec_loadstart` names, and the reset block has those values already. -/
theorem loadstartClearsTheBuffer : Obligations.LoadstartClearsTheBuffer := by
  refine ⟨decode_encode .loadstart, ?_, fun s => ⟨_, exec_loadstart s, Memory.read_cleared, rfl, rfl⟩,
    fun s hs => ⟨_, exec_loadstart s, ?_⟩⟩
  · exact reservedBitsAreIllegal_of_row (r := ⟨"LOADSTART", 0x10000000, 0xFFFFFFFF⟩) (by simp [opcodeTable])
  · obtain ⟨hfb, -, -, hptr, -, htrunc⟩ := hs
    exact ⟨hfb.symm, rfl, rfl, hptr.symm, rfl, htrunc.symm⟩

/-- Settles O23: below 1024 the cell written is the one WPTR names, and at 1024 the byte is dropped. -/
theorem loadbyteAppendsOrDrops : Obligations.LoadbyteAppendsOrDrops := by
  refine ⟨fun d => ?_, ?_, fun d s hw => ⟨_, exec_loadbyte_of_room d hw, fun a => ?_, wptr_succ_toNat hw, ?_, rfl⟩,
    fun d s hw => exec_loadbyte_of_full d hw.ge⟩
  · simpa [encode, placed] using decode_encode (.loadbyte d)
  · exact reservedBitsAreIllegal_of_row (r := ⟨"LOADBYTE", 0x20000000, 0xFFFFFF00⟩) (by simp [opcodeTable])
  · rw [State.respond_fb, State.appendByte_fb, Memory.read_write, wptr_addr_toNat hw]
  · rw [State.full_iff, State.respond_wptr, State.appendByte_wptr, wptr_succ_toNat hw]
    omega

/-- Settles O24: FB is the one write of `exec_wrbyte`, and a read after it is `Memory.read_write`. -/
theorem wrbyteWritesOneByte : Obligations.WrbyteWritesOneByte := by
  refine ⟨fun a d => ?_, ?_, fun a d s => ⟨_, exec_wrbyte a d s, Memory.read_write s.fb a.toNat d, rfl⟩⟩
  · simpa [encode, placed] using decode_encode (.wrbyte a d)
  · exact reservedBitsAreIllegal_of_row (r := ⟨"WRBYTE", 0x30000000, 0xFC00FF00⟩) (by simp [opcodeTable])

/-- Settles O25: the response is the byte of FB, which CFG is no part of. -/
theorem rdbyteReturnsTheRawByte : Obligations.RdbyteReturnsTheRawByte := by
  refine ⟨fun a => decode_encode (.rdbyte a), ?_, fun a s => ?_, fun a s o v => ⟨_, exec_rdbyte a s, exec_rdbyte a _⟩,
    fun a => exec_rdbyte a _⟩
  · exact reservedBitsAreIllegal_of_row (r := ⟨"RDBYTE", 0x40000000, 0xFC00FFFF⟩) (by simp [opcodeTable])
  · rw [exec_rdbyte, responseOf, BitVec.ofNat_toNat]
    rfl

end Sys2Proof.Machine
end

section
/-! SUPPORT. The bits of a byte under the operations of a strip, and a pixel and its place in FB as each other's inverse
(R31, R63, R64). -/

namespace Sys2Proof.Machine

/-! Bits of a byte -/

@[simp] theorem byteBit_xor (u v : Byte) (i : BitVec 3) : byteBit (u ^^^ v) i = (byteBit u i ^^ byteBit v i) :=
  BitVec.getLsbD_xor

@[simp] theorem byteBit_bitrev8 (v : Byte) (i : BitVec 3) : byteBit (bitrev8 v) i = byteBit v (7 - i) :=
  byteBit_packByte _ i

/-- `bitrev8(v)[i] = v[7-i]` (R8), the bits counted in numbers. -/
theorem bitrev8_bit (v : Byte) {i : Nat} (hi : i < 8) : (bitrev8 v).getLsbD i = v.getLsbD (7 - i) := by
  have hsub : (7 - BitVec.ofNat 3 i).toNat = 7 - i :=
    (bitIndex_toNat .msbFirst (BitVec.ofNat 3 i)).trans (by simp [Nat.mod_eq_of_lt hi])
  rw [bitrev8, packByte_bit _ i hi, byteBit, hsub]

/-- The byte that a strip is negated with has INVERT in every bit (R68). -/
theorem byteBit_invertMask (b : Bool) : ∀ i, byteBit (if b then 0xFF else 0x00) i = b := by
  cases b <;> decide

/-- Negating the 8 packed bits is `NOT8` (R8). -/
theorem packByte_not (f : BitVec 3 → Bool) : packByte (fun i => !f i) = packByte f ^^^ 0xFF :=
  byte_ext fun i => by
    have hones : byteBit 0xFF i = true := byteBit_invertMask true i
    rw [byteBit_xor, byteBit_packByte, byteBit_packByte, hones, Bool.xor_true]

/-! A pixel and its place -/

@[simp] theorem bitIndex_bitIndex (o : BitOrder) (r : BitVec 3) : bitIndex o (bitIndex o r) = r := by
  cases o with
  | lsbFirst => rfl
  | msbFirst => exact sub_sub_cancel 7 r

@[simp] theorem pageOfAddr_stripAddr (p : Page) (x : Column) : pageOfAddr (stripAddr p x) = p := by
  obtain ⟨-, hpage, -⟩ := pageLayoutOfAddresses.1 p x
  exact hpage

@[simp] theorem columnOfAddr_stripAddr (p : Page) (x : Column) : columnOfAddr (stripAddr p x) = x := by
  obtain ⟨-, -, hcolumn⟩ := pageLayoutOfAddresses.1 p x
  exact hcolumn

@[simp] theorem stripAddr_pageOfAddr (a : FbAddr) : stripAddr (pageOfAddr a) (columnOfAddr a) = a := by
  obtain ⟨-, -, haddr⟩ := pageLayoutOfAddresses.2.1 a
  exact haddr

@[simp] theorem pageOfRow_rowOfPage (p : Page) (r : BitVec 3) : pageOfRow (rowOfPage p r) = p := by
  obtain ⟨-, hpage, -⟩ := pageLayoutOfAddresses.2.2 p r
  exact hpage

@[simp] theorem rowInPage_rowOfPage (p : Page) (r : BitVec 3) : rowInPage (rowOfPage p r) = r := by
  obtain ⟨-, -, hrow⟩ := pageLayoutOfAddresses.2.2 p r
  exact hrow

@[simp] theorem rowOfPage_pageOfRow (y : PixelRow) : rowOfPage (pageOfRow y) (rowInPage y) = y :=
  BitVec.eq_of_toNat_eq (by rw [rowOfPage_toNat, pageOfRow_toNat, rowInPage_toNat, Nat.div_add_mod'])

/-- Where each pixel stands in FB: its address and its bit (R31, R63). -/
def pixelPlace (o : BitOrder) : Column × PixelRow ≃ FbAddr × BitVec 3 where
  toFun q := (stripAddr (pageOfRow q.2) q.1, bitIndex o (rowInPage q.2))
  invFun c := (columnOfAddr c.1, rowOfPage (pageOfAddr c.1) (bitIndex o c.2))
  left_inv q := by simp
  right_inv c := by simp

/-- The decoded pixel is the bit at its place (R64). -/
theorem Memory.pixel_eq_bit_of_place (m : Memory) (o : BitOrder) (q : Column × PixelRow) :
    m.pixel o q.1 q.2 = byteBit (m.read (pixelPlace o q).1.toNat) (pixelPlace o q).2 := rfl

theorem Memory.pixel_rowOfPage (m : Memory) (o : BitOrder) (x : Column) (p : Page) (r : BitVec 3) :
    m.pixel o x (rowOfPage p r) = byteBit (m.read (p.toNat * 128 + x.toNat)) (bitIndex o r) := by
  rw [Memory.pixel, pageOfRow_rowOfPage, rowInPage_rowOfPage, stripAddr_toNat]

end Sys2Proof.Machine
end

section
/-! SUPPORT. The pixels that the decode commands return, in plain numbers and byte by byte (R65, R68, R69), and what they
depend on (R72). -/

namespace Sys2Proof.Machine

theorem State.decodedPixel_eq_bit (s : State) (x : Column) (y : PixelRow) :
    s.decodedPixel x y = (s.fb.read (y.toNat / 8 * 128 + x.toNat)).getLsbD
      (if s.bitOrder = .lsbFirst then y.toNat % 8 else 7 - y.toNat % 8) := by
  rw [State.decodedPixel_eq, Memory.pixel, byteBit, stripAddr_toNat, pageOfRow_toNat, bitIndex_toNat, rowInPage_toNat]

theorem State.displayedPixel_eq_pixelAt (s : State) (x : Column) (y : PixelRow) :
    s.displayedPixel x y = s.pixelAt x.toNat y.toNat :=
  congrArg (· ^^ s.invert) (s.decodedPixel_eq_bit x y)

/-- The displayed pixel depends on FB and CFG only. -/
theorem State.displayedPixel_congr {s t : State} (hfb : t.fb = s.fb) (hinv : t.invert = s.invert)
    (hord : t.bitOrder = s.bitOrder) : t.displayedPixel = s.displayedPixel := by
  funext x y
  rw [State.displayedPixel_eq, State.displayedPixel_eq, hfb, hinv, hord]

theorem State.displayedPixel_invert (s : State) (x : Column) (y : PixelRow) :
    { s with invert := true }.displayedPixel x y = !({ s with invert := false }.displayedPixel x y) := by
  simp only [State.displayedPixel_eq, Bool.xor_true, Bool.xor_false]

theorem State.stripByte_bit (s : State) (x : Column) (p : Page) {i : Nat} (hi : i < 8) :
    (s.stripByte x p).getLsbD i = s.pixelAt x.toNat (p.toNat * 8 + i) := by
  rw [State.stripByte, packByte_bit _ i hi, State.displayedPixel_eq_pixelAt, rowOfPage_toNat, BitVec.toNat_ofNat,
    Nat.mod_eq_of_lt hi]

theorem State.rowByte_bit (s : State) (g : BitVec 4) (y : PixelRow) {i : Nat} (hi : i < 8) :
    (s.rowByte g y).getLsbD i = s.pixelAt (8 * g.toNat + i) y.toNat := by
  rw [State.rowByte, packByte_bit _ i hi, State.displayedPixel_eq_pixelAt, columnOfGroup_toNat, BitVec.toNat_ofNat,
    Nat.mod_eq_of_lt hi]

/-- The closed form of a strip (R68). -/
theorem State.stripByte_eq (s : State) (x : Column) (p : Page) :
    s.stripByte x p = (if s.bitOrder = .lsbFirst then s.fb.read (p.toNat * 128 + x.toNat)
      else bitrev8 (s.fb.read (p.toNat * 128 + x.toNat))) ^^^ (if s.invert then 0xFF else 0x00) := by
  refine byte_ext fun i => ?_
  rw [State.stripByte, byteBit_packByte, State.displayedPixel_eq, Memory.pixel_rowOfPage, byteBit_xor,
    byteBit_invertMask]
  congr 1
  cases s.bitOrder with
  | lsbFirst => rfl
  | msbFirst => exact (byteBit_bitrev8 _ i).symm

/-! Responses -/

theorem zext32_eq_responseOf {n : Nat} (v : BitVec n) : zext32 v = responseOf v.toNat :=
  (BitVec.ofNat_toNat 32 v).symm

theorem zext32_ofBool (b : Bool) : zext32 (BitVec.ofBool b) = responseOf (if b then 1 else 0) := by
  cases b <;> rfl

theorem getLsbD_zext32 {n : Nat} (v : BitVec n) (hn : n ≤ 32) (i : Nat) : (zext32 v).getLsbD i = v.getLsbD i := by
  rw [zext32_eq_placed, getLsbD_placed v (by omega), Nat.sub_zero, decide_eq_true (Nat.zero_le i), Bool.true_and]

/-- A run of RDROW8 commands answers their row groups in order and changes nothing else. -/
theorem execWords_rdrow8s {α : Type} (g : α → BitVec 4) (y : α → PixelRow) (ks : List α) (s : State) :
    execWords (ks.map fun k => encode (.rdrow8 (g k) (y k))) s =
      .next { s with pending := s.pending ++ ks.map fun k => zext32 (s.rowByte (g k) (y k)) } := by
  induction ks generalizing s with
  | nil => simp
  | cons k ks ih =>
    have hfirst := (execWord_of_ok (decode_encode (.rdrow8 (g k) (y k))) s).trans (exec_rdrow8 _ _ s)
    have hrest : (s.respond (zext32 (s.rowByte (g k) (y k)))).rowByte = s.rowByte := rfl
    rw [List.map_cons, execWords_cons_of_next hfirst, ih, hrest, State.respond_pending, List.append_assoc]
    rfl

end Sys2Proof.Machine
end

section
/-! SUPPORT. The buffer that decodes to a grid (R70): FB filled with given bytes, and its bytes taken from the grid. -/

namespace Sys2Proof.Machine

/-- FB after the bytes `f 0`, `f 1`, … are written to its first `n` addresses. -/
def Memory.filled (f : Nat → Byte) : Nat → Memory
  | 0 => Memory.cleared
  | n + 1 => (Memory.filled f n).write n (f n)

theorem Memory.read_filled (f : Nat → Byte) (n a : Nat) : (Memory.filled f n).read a = if a < n then f a else 0 := by
  induction n with
  | zero => rfl
  | succ n ih =>
    rw [Memory.filled, Memory.read_write, ih]
    by_cases ha : a = n
    · simp [ha]
    · rw [if_neg ha]
      exact if_congr (by omega) rfl rfl

theorem Memory.wf_filled (f : Nat → Byte) {n : Nat} (hn : n ≤ 1024) : (Memory.filled f n).wf = true := by
  induction n with
  | zero => rfl
  | succ n ih => exact Memory.wf_write (f n) (ih (by omega)) (by omega)

/-- Two canonical buffers with the same byte at every FB address are the same data. -/
theorem Memory.eq_of_read_addr {m n : Memory} (hm : m.wf = true) (hn : n.wf = true)
    (h : ∀ a : FbAddr, m.read a.toNat = n.read a.toNat) : m = n := by
  refine Memory.eq_of_read hm hn fun a => ?_
  rcases Nat.lt_or_ge a 1024 with ha | ha
  · simpa [Nat.mod_eq_of_lt ha] using h (BitVec.ofNat 10 a)
  · rw [Memory.read_beyond hm ha, Memory.read_beyond hn ha]

/-- A buffer decodes to a grid iff each bit of it is the grid's pixel at the bit's place. -/
theorem Memory.pixel_eq_grid_iff (m : Memory) (o : BitOrder) (grid : Column → PixelRow → Bool) :
    (∀ x y, m.pixel o x y = grid x y) ↔
      ∀ a k, byteBit (m.read a.toNat) k = Function.uncurry grid ((pixelPlace o).symm (a, k)) := by
  constructor
  · intro h a k
    have hbit := m.pixel_eq_bit_of_place o ((pixelPlace o).symm (a, k))
    rw [Equiv.apply_symm_apply] at hbit
    exact hbit.symm.trans (h _ _)
  · intro h x y
    have hbit := h (pixelPlace o (x, y)).1 (pixelPlace o (x, y)).2
    rw [Prod.mk.eta, Equiv.symm_apply_apply] at hbit
    exact (m.pixel_eq_bit_of_place o (x, y)).trans hbit

/-- The buffer that decodes to a grid. -/
def bufferOfGrid (o : BitOrder) (grid : Column → PixelRow → Bool) : Memory :=
  Memory.filled (fun a => packByte fun k => Function.uncurry grid ((pixelPlace o).symm (BitVec.ofNat 10 a, k))) 1024

theorem bufferOfGrid_wf (o : BitOrder) (grid : Column → PixelRow → Bool) : (bufferOfGrid o grid).wf = true :=
  Memory.wf_filled _ le_rfl

theorem pixel_bufferOfGrid (o : BitOrder) (grid : Column → PixelRow → Bool) (x : Column) (y : PixelRow) :
    (bufferOfGrid o grid).pixel o x y = grid x y := by
  refine (Memory.pixel_eq_grid_iff _ o grid).2 (fun a k => ?_) x y
  rw [bufferOfGrid, Memory.read_filled, if_pos a.isLt, byteBit_packByte, BitVec.ofNat_toNat, BitVec.setWidth_eq]

/-- No two canonical buffers decode to the same grid. -/
theorem Memory.eq_of_pixel {m n : Memory} {o : BitOrder} (hm : m.wf = true) (hn : n.wf = true)
    (h : ∀ x y, m.pixel o x y = n.pixel o x y) : m = n := by
  refine Memory.eq_of_read_addr hm hn fun a => byte_ext fun k => ?_
  rw [(m.pixel_eq_grid_iff o (n.pixel o)).1 h a k, (n.pixel_eq_grid_iff o (n.pixel o)).1 (fun _ _ => rfl) a k]

end Sys2Proof.Machine
end

section
/-! The statements of 41_decode.md. -/

namespace Sys2Proof.Machine

/-- Settles O35: a pixel and its place in FB determine each other (`pixelPlace`), so the bits of a buffer are the pixels
of exactly one grid, and a grid's bits fill exactly one canonical buffer. -/
theorem decodeIsABijection : Obligations.DecodeIsABijection := by
  refine ⟨fun o => (pixelPlace o).bijective, fun m o p x k => ?_, fun o grid => ?_, fun s x p hinv => ?_⟩
  · rw [Memory.pixel_rowOfPage, bitIndex_bitIndex]
  · refine ⟨bufferOfGrid o grid, ⟨bufferOfGrid_wf o grid, pixel_bufferOfGrid o grid⟩, ?_⟩
    rintro m ⟨hm, hpixel⟩
    exact Memory.eq_of_pixel hm (bufferOfGrid_wf o grid) fun x y =>
      (hpixel x y).trans (pixel_bufferOfGrid o grid x y).symm
  · simp [State.stripByte_eq, hinv]

/-- Settles O31: the place of a pixel in numbers is its row's quotient and remainder by 8. -/
theorem pixelIsTheSelectedBit : Obligations.PixelIsTheSelectedBit := fun s x y =>
  ⟨s.decodedPixel_eq_bit x y, rfl, s.displayedPixel_eq_pixelAt x y⟩

/-- Settles O32: the response of `exec_rdpix` is the displayed pixel, which is `pixelAt`. -/
theorem rdpixReturnsOnePixel : Obligations.RdpixReturnsOnePixel := by
  refine ⟨fun x y => ?_, ?_, fun x y s => ?_⟩
  · simpa [encode, placed] using decode_encode (.rdpix x y)
  · exact reservedBitsAreIllegal_of_row (r := ⟨"RDPIX", 0x50000000, 0xFFFFC080⟩) (by simp [opcodeTable])
  · rw [exec_rdpix, zext32_ofBool, State.displayedPixel_eq_pixelAt]
    rfl

/-- Settles O33: the strip of `exec_rdstrip` bit by bit and in its closed form. -/
theorem rdstripReturnsAColumnStrip : Obligations.RdstripReturnsAColumnStrip := by
  refine ⟨fun x p => ?_, ?_, fun v i hi => bitrev8_bit v hi, fun x p s =>
    ⟨s.stripByte x p, ?_, fun i hi => s.stripByte_bit x p hi, s.stripByte_eq x p⟩⟩
  · simpa [encode, placed] using decode_encode (.rdstrip x p)
  · exact reservedBitsAreIllegal_of_row (r := ⟨"RDSTRIP", 0x60000000, 0xFFFFF880⟩) (by simp [opcodeTable])
  · rw [exec_rdstrip, zext32_eq_responseOf]
    rfl

/-- Settles O34: one command answers one row group, and response `16y + g` of the raster run is group `g` of row `y`. -/
theorem rdrow8ReturnsARowGroup : Obligations.Rdrow8ReturnsARowGroup := by
  refine ⟨fun g y => ?_, ?_, fun g y s => ⟨s.rowByte g y, ?_, fun i hi => s.rowByte_bit g y hi⟩,
    fun s => ⟨_, execWords_rdrow8s _ _ _ s, ?_, fun x y hx hy => ?_⟩⟩
  · simpa [encode, placed] using decode_encode (.rdrow8 g y)
  · exact reservedBitsAreIllegal_of_row (r := ⟨"RDROW8", 0x70000000, 0xFFFFC0F0⟩) (by simp [opcodeTable])
  · rw [exec_rdrow8, zext32_eq_responseOf]
    rfl
  · simp
  · have hk : 16 * y + x / 8 < 1024 := by omega
    have hg : (16 * y + x / 8) % 16 = x / 8 := by omega
    have hy' : (16 * y + x / 8) / 16 = y := by omega
    refine ⟨zext32 (s.rowByte (BitVec.ofNat 4 (x / 8)) (BitVec.ofNat 6 y)), ?_, ?_⟩
    · simp [hk, hg, hy']
    · have hcolumn : 8 * (BitVec.ofNat 4 (x / 8)).toNat + x % 8 = x := by
        rw [BitVec.toNat_ofNat]
        omega
      have hrow : (BitVec.ofNat 6 y).toNat = y := Nat.mod_eq_of_lt hy
      rw [getLsbD_zext32 _ (by decide), s.rowByte_bit _ _ (by omega), hcolumn, hrow]

/-- Settles O36: INVERT is the last XOR of a displayed pixel, and a byte of 8 negated pixels is `NOT8` of the byte. -/
theorem inversionNegatesEveryPixel : Obligations.InversionNegatesEveryPixel := by
  refine ⟨State.displayedPixel_invert, fun s x y hinv => ?_, fun s x p => ?_, fun s g y => ?_,
    fun colour swap hon hoff s x y => ?_⟩
  · refine ⟨_, _, exec_wrcfg s.bitOrder true s, exec_wrcfg s.bitOrder false _, ?_, ?_⟩ <;>
      simp [State.displayedPixel_eq, hinv]
  · simp only [State.stripByte, State.displayedPixel_invert, packByte_not]
  · simp only [State.rowByte, State.displayedPixel_invert, packByte_not]
  · rw [State.displayedPixel_invert]
    cases { s with invert := false }.displayedPixel x y with
    | false => exact hoff.symm
    | true => exact hon.symm

/-- Settles O37: each response is made of displayed pixels, which depend on FB and CFG only. -/
theorem decodeCommandsAreDeterministic : Obligations.DecodeCommandsAreDeterministic := by
  intro i w s t hd hi hfb hinv hord
  have hpixel := State.displayedPixel_congr hfb hinv hord
  have hsilent (u : State) : execWord w u = .next { u with pending := u.pending ++ [u.responseTo i] } := by
    rw [execWord_of_ok hd]
    obtain ⟨x, y, rfl⟩ | ⟨x, p, rfl⟩ | ⟨g, y, rfl⟩ := hi <;> rfl
  have hresponse : t.responseTo i = s.responseTo i := by
    obtain ⟨x, y, rfl⟩ | ⟨x, p, rfl⟩ | ⟨g, y, rfl⟩ := hi <;>
      simp only [State.responseTo, State.stripByte, State.rowByte, hpixel]
  exact ⟨s.responseTo i, hsilent s, hresponse ▸ hsilent t⟩

/-- Settles O30: in numbers the index is `bitIndex_toNat`, and `7 - (7 - r) = r`. -/
theorem bitIndexPerBitOrder : Obligations.BitIndexPerBitOrder := fun r =>
  ⟨rfl, bitIndex_toNat .msbFirst r, fun o => bitIndex_bitIndex o r⟩

end Sys2Proof.Machine
end

section
/-! SUPPORT. What the words of RDCFG and RDSTAT hold: the value of the one and the fields of the other (R18, R22). -/

namespace Sys2Proof.Machine

/-- The CFG word as a number: BIT_ORDER counts 2 and INVERT counts 1. -/
theorem State.cfgWord_eq_responseOf (s : State) :
    s.cfgWord = responseOf ((if s.bitOrder = .msbFirst then 2 else 0) + (if s.invert then 1 else 0)) := by
  rw [State.cfgWord]
  cases s.bitOrder <;> cases s.invert <;> rfl

theorem State.statusWord_wptr (s : State) : s.statusWord.extractLsb' 16 11 = s.wptr := by
  simp (disch := decide) [State.statusWord_eq_placed, BitVec.extractLsb'_or, extractLsb'_placed,
    extractLsb'_placed_of_disjoint]

/-- The three lowest bits of the STATUS word are the flags. -/
theorem State.statusWord_flags (s : State) : s.statusWord.getLsbD 2 = s.full ∧ s.statusWord.getLsbD 1 = s.trunc ∧
    s.statusWord.getLsbD 0 = s.ill := by
  simp [State.statusWord_eq_placed, getLsbD_placed, -BitVec.getLsbD_eq_getElem]

end Sys2Proof.Machine
end

section
/-! The statements of 42_control.md. -/

namespace Sys2Proof.Machine

/-- Settles O38: `exec_nop` adds the acknowledge, and the mask of NOP's row covers the whole word. -/
theorem nopOnlyAnswers : Obligations.NopOnlyAnswers := by
  refine ⟨decode_encode .nop, ?_, exec_nop⟩
  exact reservedBitsAreIllegal_of_row (r := ⟨"NOP", 0x00000000, 0xFFFFFFFF⟩) (by simp [opcodeTable])

/-- Settles O39: the two operand bits are read back as the fields that `exec_wrcfg` writes. -/
theorem wrcfgWritesBothFields : Obligations.WrcfgWritesBothFields := by
  refine ⟨fun order inv => ?_, ?_, exec_wrcfg⟩
  · have hword := decode_encode (.wrcfg (.ofBit order) inv)
    rw [encode, BitOrder.bit_ofBit] at hword
    simpa [placed, BitOrder.ofBit] using hword
  · exact reservedBitsAreIllegal_of_row (r := ⟨"WRCFG", 0x80000000, 0xFFFFFFFC⟩) (by simp [opcodeTable])

/-- Settles O40: the response of `exec_rdcfg` is the CFG word, whose number is `State.cfgWord_eq_responseOf`. -/
theorem rdcfgReturnsTheConfiguration : Obligations.RdcfgReturnsTheConfiguration := by
  refine ⟨decode_encode .rdcfg, ?_, fun s => ?_⟩
  · exact reservedBitsAreIllegal_of_row (r := ⟨"RDCFG", 0x90000000, 0xFFFFFFFF⟩) (by simp [opcodeTable])
  · rw [exec_rdcfg, State.cfgWord_eq_responseOf]
    rfl

/-- Settles O41: the response of `exec_rdstat` is the STATUS word, read field by field. -/
theorem rdstatReturnsTheStatusWord : Obligations.RdstatReturnsTheStatusWord := by
  refine ⟨decode_encode .rdstat, ?_, fun s => ?_⟩
  · exact reservedBitsAreIllegal_of_row (r := ⟨"RDSTAT", 0xA0000000, 0xFFFFFFFF⟩) (by simp [opcodeTable])
  · obtain ⟨hfull, htrunc, hill⟩ := s.statusWord_flags
    exact ⟨s.statusWord, exec_rdstat s, s.statusWord_wptr, hfull ▸ s.full_iff, htrunc, hill, s.statusWord_unused_bits⟩

/-- Settles O42: `exec_clrstat` clears the two flags, and FULL is computed from WPTR, which stays. -/
theorem clrstatClearsTheStickyFlags : Obligations.ClrstatClearsTheStickyFlags := by
  refine ⟨decode_encode .clrstat, ?_, fun s => ⟨_, exec_clrstat s, rfl, rfl⟩⟩
  exact reservedBitsAreIllegal_of_row (r := ⟨"CLRSTAT", 0xB0000000, 0xFFFFFFFF⟩) (by simp [opcodeTable])

end Sys2Proof.Machine
end

section
/-! SUPPORT. Which of its two causes the decoder names where it rejects a word (R79), and that no legal command sets
ILL. -/

namespace Sys2Proof

theorem checkedInstr_ne_reservedOpcode (b : Bool) (i : Instr) : checkedInstr b i ≠ .error .reservedOpcode := by
  cases b <;> simp [checkedInstr]

/-- R79 (a): only the dispatch's last arm answers this cause, and it takes the opcodes 0xC..0xF. -/
theorem decode_eq_reservedOpcode_iff (w : Word) :
    decode w = .error .reservedOpcode ↔ 12 ≤ (opcodeOf w).toNat := by
  unfold decode
  split
  case h_13 =>
    simp only [imp_false, true_iff] at *
    omega
  all_goals
    next hop => simp [hop, checkedInstr_ne_reservedOpcode]

/-- Of a word whose opcode has a row, that row alone decides legality (R50). -/
theorem isLegal_eq_false_iff_misses_row {r : OpcodeRow} (hr : r ∈ opcodeTable) {w : Word}
    (hrow : opcodeOf r.pattern = opcodeOf w) : isLegal w = false ↔ w &&& r.mask ≠ r.pattern := by
  rw [← Bool.not_eq_true, isLegal_iff_exists_row]
  refine not_congr ⟨fun ⟨q, hq, hmatch⟩ => ?_, fun hmatch => ⟨r, hr, hmatch⟩⟩
  obtain rfl := row_eq_of_opcode hr hq (hrow.trans ((row_matches_iff hq w).1 hmatch).1.symm)
  exact hmatch

/-- R79 (b): the opcode has a row, and the word does not match it. -/
theorem decode_eq_reservedBitSet_iff (w : Word) : decode w = .error .reservedBitSet ↔ (opcodeOf w).toNat < 12 ∧
    ∃ r ∈ opcodeTable, opcodeOf r.pattern = opcodeOf w ∧ w &&& r.mask ≠ r.pattern := by
  constructor
  · intro hw
    have hop : (opcodeOf w).toNat < 12 := by
      rw [← Nat.not_le, ← decode_eq_reservedOpcode_iff, hw]
      simp
    obtain ⟨r, hr, hrow⟩ := exists_row_of_opcode (opcodeOf w) hop
    have hillegal : isLegal w = false := (isLegal_eq_false_iff w).2 ⟨_, hw⟩
    exact ⟨hop, r, hr, hrow, (isLegal_eq_false_iff_misses_row hr hrow).1 hillegal⟩
  · rintro ⟨hop, r, hr, hrow, hmiss⟩
    have hillegal : isLegal w = false := (isLegal_eq_false_iff_misses_row hr hrow).2 hmiss
    obtain ⟨cause, hcause⟩ := (isLegal_eq_false_iff w).1 hillegal
    cases cause with
    | reservedOpcode => exact absurd ((decode_eq_reservedOpcode_iff w).1 hcause) (by omega)
    | reservedBitSet => exact hcause

namespace Machine

/-- No command sets ILL: CLRSTAT clears it, and every other command leaves it. -/
theorem exec_keeps_ill_clear {i : Instr} {s t : State} (h : exec i s = .next t) (hs : s.ill = false) :
    t.ill = false := by
  by_cases hi : i = .clrstat
  · subst hi
    cases h
    rfl
  · exact (exec_ill h hi).trans hs

theorem execWords_singleton (w : Word) (s : State) : execWords [w] s = execWord w s := by
  obtain ⟨t, ht⟩ := execWord_next w s
  rw [execWords_cons_of_next ht, execWords_nil, ht]

end Machine

end Sys2Proof
end

section
/-! The statements of 60_exceptions.md. -/

namespace Sys2Proof.Machine

/-- Settles O5: the decoder's causes are `decode_eq_reservedOpcode_iff` and `decode_eq_reservedBitSet_iff`, a word is
executed as a command exactly where it is legal, and no command sets ILL. -/
theorem illegalCommandHasTwoCauses : Obligations.IllegalCommandHasTwoCauses := by
  refine ⟨decode_eq_reservedOpcode_iff, decode_eq_reservedBitSet_iff, fun w hw s => ?_, fun w hw s hs => ?_,
    fun w hw => ?_⟩
  · obtain ⟨r, hr⟩ := (isLegal_eq_false_iff w).1 hw
    exact execWord_of_error hr s
  · obtain ⟨i, hi⟩ := (isLegal_iff_decode_ok w).1 hw
    obtain ⟨t, ht⟩ := exec_next i s
    exact ⟨t, (execWord_of_ok hi s).trans ht, exec_keeps_ill_clear ht hs⟩
  · have hexamples : ∀ v ∈ [0xC0000000#32, 0x00000001#32, 0x20000100#32, 0x50000080#32, 0x80000004#32],
        isLegal v = false := List.forall_iff_forall_mem.1 (by decide)
    exact answersIllegal_of_not_legal (hexamples w hw)

/-- Settles O13: the state is the one `answersIllegal_of_not_legal` gives, and a run of two words executes the second in
the state that the first leaves. -/
theorem illegalCommandIsPrecise : Obligations.IllegalCommandIsPrecise := fun w s hw => by
  have hillegal := answersIllegal_of_not_legal hw s
  exact ⟨_, hillegal, rfl, fun v => (execWords_cons_of_next hillegal [v]).trans (execWords_singleton v _)⟩

end Sys2Proof.Machine
end

section
/-! SUPPORT. What a reset edge shows at the port and leaves in the block, and that the block waits through edges that
accept nothing. -/

namespace Sys2Proof.Machine

theorem State.nextEdge_of_cons {s : State} {e : Edge} {es : List Edge} (h : s.edges = e :: es) :
    s.nextEdge = e := by
  rw [State.nextEdge, h, List.headD_cons]

/-- R93: no command is accepted while `rst = 1`. -/
theorem Edge.accepts_of_rst {e : Edge} (h : e.rst = true) : e.accepts = false := by
  rw [← Bool.not_eq_true, Edge.accepts_iff, h]
  simp

theorem State.nextRspValid_of_rst {s : State} (h : s.nextEdge.rst = true) : s.nextRspValid = false := by
  rw [State.nextRspValid_of_next (commandEdge_wait (Edge.accepts_of_rst h) _), State.rspValid_of_rst h]

theorem step_of_rst {s : State} {e : Edge} {es : List Edge} (h : s.edges = e :: es) (hrst : e.rst = true) :
    step s = .next { s with edges := es }.applyReset := by
  rw [step_of_cons h, clockEdge_reset hrst]

theorem sameBlock_applyReset (s : State) : SameBlock State.reset s.applyReset := ⟨rfl, rfl, rfl, rfl, rfl, rfl⟩

theorem step_of_wait {s : State} {e : Edge} {es : List Edge} (h : s.edges = e :: es) (hrst : e.rst = false)
    (hwait : e.accepts = false) : step s = .next (State.responseEdge e { s with edges := es }) := by
  rw [step_of_cons h, clockEdge_run hrst, commandEdge_wait hwait, afterNext]

theorem acceptedWords_eq_nil_iff (es : List Edge) : acceptedWords es = [] ↔ ∀ e ∈ es, e.accepts = false := by
  simp [acceptedWords]

/-- Edges without reset that accept nothing have only a response side, which changes no state of R15. -/
theorem run_of_wait_sameBlock {before after : List Edge} {s : State} (hs : s.edges = before ++ after)
    (hreset : NoReset before) (hwait : ∀ e ∈ before, e.accepts = false) :
    ∃ t, core.run before.length s = .next t ∧ SameBlock s t := by
  induction before generalizing s with
  | nil => exact ⟨s, run_zero s, .refl s⟩
  | cons e es ih =>
    obtain ⟨hrst, hresets⟩ := List.forall_mem_cons.1 hreset
    obtain ⟨haccepts, hwaits⟩ := List.forall_mem_cons.1 hwait
    obtain ⟨hblock, hedges, -⟩ := State.responseEdge_keeps e { s with edges := es ++ after }
    obtain ⟨t, hrun, hsame⟩ := ih hedges hresets hwaits
    exact ⟨t, (run_succ_of_step (step_of_wait hs hrst haccepts) _).trans hrun, SameBlock.trans hblock hsame⟩

end Sys2Proof.Machine
end

section
/-! The statements of 70_reset_and_hazards.md. -/

namespace Sys2Proof.Machine

/-- Settles O51: the reset edge's step is `applyReset`, and the edges after it that accept nothing keep the block. -/
theorem resetEdgeSilencesThePort : Obligations.ResetEdgeSilencesThePort := by
  intro s e es hs hrst
  have hnext : s.nextEdge.rst = true := by rwa [State.nextEdge_of_cons hs]
  have hstep := step_of_rst hs hrst
  refine ⟨Edge.cmdReady_of_rst hnext, State.nextRspValid_of_rst hnext, Edge.accepts_of_rst hrst,
    ⟨_, hstep, sameBlock_applyReset _⟩, fun before after hes hreset hwords => ?_⟩
  have hwait := (acceptedWords_eq_nil_iff before).1 hwords
  obtain ⟨t, hrun, hsame⟩ := run_of_wait_sameBlock (s := { s with edges := es }.applyReset) hes hreset hwait
  refine ⟨t, (run_succ_of_step hstep _).trans hrun, (sameBlock_applyReset _).trans hsame, ?_⟩
  rw [run_edges hrun, State.applyReset_edges, hes, List.drop_left]

end Sys2Proof.Machine
end

section
/-! SUPPORT. The response of a word, legal or not, and of each word of a run (R44, R96); and that what a run does to the
block and what it answers depend on the block alone, not on the port. -/

namespace Sys2Proof.Machine

/-! What a word answers -/

/-- The response to a word: its command's, or ERR where it is none (R44, R80). -/
def State.responseToWord (s : State) (w : Word) : Word :=
  match decode w with
  | .ok i => s.responseTo i
  | .error _ => errResponse

theorem exec_pending {i : Instr} {s t : State} (h : exec i s = .next t) : t.pending = s.pending ++ [s.responseTo i] := by
  obtain ⟨u, hu, hpending⟩ := exec_answers i s
  cases h.symm.trans hu
  exact hpending

theorem execWord_pending {w : Word} {s t : State} (h : execWord w s = .next t) :
    t.pending = s.pending ++ [s.responseToWord w] := by
  obtain ⟨i, hd, -, he⟩ | ⟨⟨r, hd⟩, -, rfl⟩ := execWord_cases h
  · rw [exec_pending he, State.responseToWord, hd]
  · rw [State.respond_pending, State.responseToWord, hd]

theorem execWords_samePort {ws : List Word} {s t : State} (h : execWords ws s = .next t) : SamePort s t := by
  induction ws generalizing s with
  | nil => cases h; exact ⟨rfl, rfl, rfl⟩
  | cons w ws ih =>
    obtain ⟨u, hu, hrest⟩ := execWords_cons_inv h
    obtain ⟨hedges, hoffered, hdelivered⟩ := execWord_samePort hu
    obtain ⟨gedges, goffered, gdelivered⟩ := ih hrest
    exact ⟨gedges.trans hedges, goffered.trans hoffered, gdelivered.trans hdelivered⟩

/-- A run appends one response for each word. -/
theorem execWords_pending {ws : List Word} {s t : State} (h : execWords ws s = .next t) :
    ∃ rs, t.pending = s.pending ++ rs ∧ rs.length = ws.length := by
  induction ws generalizing s with
  | nil => cases h; exact ⟨[], (List.append_nil _).symm, rfl⟩
  | cons w ws ih =>
    obtain ⟨u, hu, hrest⟩ := execWords_cons_inv h
    obtain ⟨rs, hpending, hlength⟩ := ih hrest
    exact ⟨s.responseToWord w :: rs, by rw [hpending, execWord_pending hu, List.append_assoc]; rfl, by simp [hlength]⟩

/-- The `k`-th response of a run is that of its `k`-th word in the state that the words before it leave (R96). -/
theorem execWords_response {ws : List Word} {s t : State} (h : execWords ws s = .next t) {k : Nat} {w : Word}
    (hk : ws[k]? = some w) : ∃ v v' rsp, execWords (ws.take k) s = .next v ∧ execWord w v = .next v' ∧
      v'.pending = v.pending ++ [rsp] ∧ t.pending[s.pending.length + k]? = some rsp := by
  induction ws generalizing s k with
  | nil => cases hk
  | cons x ws ih =>
    obtain ⟨u, hu, hrest⟩ := execWords_cons_inv h
    have hpending := execWord_pending hu
    cases k with
    | zero =>
      cases hk
      obtain ⟨rs, ht, -⟩ := execWords_pending hrest
      exact ⟨s, u, _, rfl, hu, hpending, by simp [ht, hpending]⟩
    | succ k =>
      obtain ⟨v, v', rsp, hv, hv', hrsp, ht⟩ := ih hrest hk
      refine ⟨v, v', rsp, (execWords_cons_of_next hu _).trans hv, hv', hrsp, ?_⟩
      rwa [hpending, List.length_append, List.length_singleton, Nat.add_assoc, Nat.add_comm 1 k] at ht

/-! The same block answers the same -/

theorem SameBlock.sameBuffer {s s' : State} (h : SameBlock s s') : SameBuffer s s' := by
  obtain ⟨hfb, hinv, hord, hptr, -, -⟩ := h
  exact ⟨hfb, hinv, hord, hptr⟩

theorem SameBlock.responseTo {s s' : State} (h : SameBlock s s') (i : Instr) : s'.responseTo i = s.responseTo i := by
  obtain ⟨hfb, hinv, hord, hptr, hill, htrunc⟩ := id h
  cases i with
  | rdbyte a => simp only [State.responseTo, State.fbRead, hfb]
  | rdpix | rdstrip | rdrow8 =>
    simp only [State.responseTo, State.stripByte, State.rowByte, h.sameBuffer.displayedPixel]
  | rdcfg => exact h.sameBuffer.cfgWord
  | rdstat => simp only [State.responseTo, State.statusWord, State.full, hptr, hill, htrunc]
  | _ => rfl

theorem SameBlock.responseToWord {s s' : State} (h : SameBlock s s') (w : Word) :
    s'.responseToWord w = s.responseToWord w := by
  unfold State.responseToWord
  split
  · exact h.responseTo _
  · rfl

theorem exec_keeps_sameBlock {i : Instr} {s s' t t' : State} (hs : SameBlock s s') (h : exec i s = .next t)
    (h' : exec i s' = .next t') : SameBlock t t' := by
  obtain ⟨gfb, ginv, gord, gptr⟩ := exec_keeps_sameBuffer hs.sameBuffer h h'
  obtain ⟨-, -, -, hptr, hill, htrunc⟩ := hs
  have gill : t'.ill = t.ill := by
    by_cases hi : i = .clrstat
    · subst hi; cases h; cases h'; rfl
    · rw [exec_ill h hi, exec_ill h' hi, hill]
  have gtrunc : t'.trunc = t.trunc := by
    by_cases hi : i ≠ .loadstart ∧ i ≠ .clrstat
    · rw [Bool.eq_iff_iff, exec_trunc h hi, exec_trunc h' hi, htrunc, hptr]
    · obtain rfl | rfl : i = .loadstart ∨ i = .clrstat := by simpa [or_iff_not_imp_left] using hi
      all_goals cases h; cases h'; rfl
  exact ⟨gfb, ginv, gord, gptr, gill, gtrunc⟩

theorem execWord_keeps_sameBlock {w : Word} {s s' t t' : State} (hs : SameBlock s s') (h : execWord w s = .next t)
    (h' : execWord w s' = .next t') : SameBlock t t' := by
  cases hd : decode w with
  | ok i =>
    rw [execWord_of_ok hd] at h h'
    exact exec_keeps_sameBlock hs h h'
  | error r =>
    rw [execWord_of_error hd] at h h'
    cases h
    cases h'
    obtain ⟨hfb, hinv, hord, hptr, -, htrunc⟩ := hs
    exact ⟨hfb, hinv, hord, hptr, rfl, htrunc⟩

/-- From two states of the same block a run leaves the same block and appends the same responses. -/
theorem execWords_keeps_sameBlock {ws : List Word} {s s' t t' : State} (hs : SameBlock s s')
    (h : execWords ws s = .next t) (h' : execWords ws s' = .next t') :
    SameBlock t t' ∧ ∃ rs, t.pending = s.pending ++ rs ∧ t'.pending = s'.pending ++ rs := by
  induction ws generalizing s s' with
  | nil => cases h; cases h'; exact ⟨hs, [], by simp⟩
  | cons w ws ih =>
    obtain ⟨u, hu, hrest⟩ := execWords_cons_inv h
    obtain ⟨u', hu', hrest'⟩ := execWords_cons_inv h'
    obtain ⟨hblock, rs, hrs, hrs'⟩ := ih (execWord_keeps_sameBlock hs hu hu') hrest hrest'
    refine ⟨hblock, s.responseToWord w :: rs, ?_, ?_⟩
    · rw [hrs, execWord_pending hu, List.append_assoc, List.singleton_append]
    · rw [hrs', execWord_pending hu', hs.responseToWord, List.append_assoc, List.singleton_append]

end Sys2Proof.Machine
end

section
/-! SUPPORT. What an edge and a step can do, once: the command side is the run of the words the edge accepts, and the
response side delivers the oldest response, raises the offer or does nothing (R45, R93, R96). -/

namespace Sys2Proof.Machine

/-- The command side of an edge is the run of the words the edge accepts: of one or of none. -/
theorem commandEdge_eq_execWords (e : Edge) (s : State) : commandEdge e s = execWords (acceptedWords [e]) s := by
  cases h : e.accepts with
  | true => rw [commandEdge_accept h, acceptedWords, List.filter_cons_of_pos h]; exact (execWords_singleton _ s).symm
  | false => rw [commandEdge_wait h, (acceptedWords_eq_nil_iff [e]).2 (by simpa using h), execWords_nil]

theorem commandEdge_next (e : Edge) (s : State) : ∃ t, commandEdge e s = .next t :=
  commandEdge_eq_execWords e s ▸ execWords_next _ s

theorem clockEdge_next (e : Edge) (s : State) : ∃ t, clockEdge e s = .next t := by
  cases h : e.rst with
  | true => exact ⟨_, clockEdge_reset h s⟩
  | false =>
    obtain ⟨t, ht⟩ := commandEdge_next e s
    exact ⟨_, by rw [clockEdge_run h, ht, afterNext_next]⟩

theorem step_next (s : State) : ∃ t, step s = .next t := clockEdge_next _ _

theorem run_next (k : Nat) (s : State) : ∃ t, core.run k s = .next t := by
  induction k generalizing s with
  | zero => exact ⟨s, rfl⟩
  | succ k ih =>
    obtain ⟨u, hu⟩ := step_next s
    rw [run_succ_of_step hu]
    exact ih u

/-- A step is a reset, or the words the next edge accepts and then the response side of the edge. -/
theorem step_cases {s t : State} (h : step s = .next t) :
    s.nextEdge.rst = true ∧ t = s.dropEdge.applyReset ∨
    s.nextEdge.rst = false ∧ ∃ u, execWords (acceptedWords [s.nextEdge]) s.dropEdge = .next u ∧
      t = u.responseEdge s.nextEdge := by
  cases hr : s.nextEdge.rst with
  | true =>
    rw [step, clockEdge_reset hr] at h
    cases h
    exact .inl ⟨rfl, rfl⟩
  | false =>
    obtain ⟨u, hu⟩ := execWords_next (acceptedWords [s.nextEdge]) s.dropEdge
    rw [step, clockEdge_run hr, commandEdge_eq_execWords, hu, afterNext_next] at h
    cases h
    exact .inr ⟨rfl, u, hu, rfl⟩

/-- The response side of an edge does nothing, raises the offer of a waiting response, or delivers the oldest one. -/
theorem State.responseEdge_cases (e : Edge) (s : State) :
    s.responseEdge e = s ∨ s.pending ≠ [] ∧ s.responseEdge e = { s with offered := true } ∨
    ∃ r rs, s.pending = r :: rs ∧
      s.responseEdge e = { s with pending := rs, offered := false, delivered := s.delivered ++ [r] } := by
  cases hv : s.rspValid e with
  | false => exact .inl (State.responseEdge_idle e hv)
  | true =>
    obtain ⟨-, hpending, -⟩ := (s.rspValid_iff e).1 hv
    cases hr : e.rspReady with
    | false => exact .inr (.inl ⟨hpending, State.responseEdge_hold hv hr⟩)
    | true =>
      obtain ⟨r, rs, hrs⟩ := List.exists_cons_of_ne_nil hpending
      exact .inr (.inr ⟨r, rs, hrs, (State.responseEdge_deliver hv hr).trans (State.deliver_cons hrs)⟩)

end Sys2Proof.Machine
end

section
/-! SUPPORT. The port as the run of the accepted commands: the simulation between the clocked block and the commands
executed one after another (R46, R96). -/

namespace Sys2Proof.Machine

theorem NoReset.nextEdge {s : State} (h : NoReset s.edges) : s.nextEdge.rst = false := by
  cases hs : s.edges with
  | nil => rw [State.nextEdge, hs]; rfl
  | cons e es => rw [State.nextEdge_of_cons hs]; exact h e (by simp [hs])

theorem NoReset.drop {es : List Edge} (h : NoReset es) (k : Nat) : NoReset (es.drop k) :=
  fun e he => h e (List.mem_of_mem_drop he)

theorem NoReset.later {k : Nat} {s t : State} (h : NoReset s.edges) (hk : core.run k s = .next t) : NoReset t.edges :=
  run_edges hk ▸ h.drop k

theorem acceptedWords_append (es fs : List Edge) : acceptedWords (es ++ fs) = acceptedWords es ++ acceptedWords fs := by
  simp [acceptedWords]

/-- The words of the first edges of a run: those of the next edge, and then those of the edges after it. -/
theorem acceptedWords_take_succ (s : State) (k : Nat) : acceptedWords (s.edges.take (k + 1)) =
    acceptedWords [s.nextEdge] ++ acceptedWords (s.edges.tail.take k) := by
  cases hs : s.edges with
  | nil => rw [State.nextEdge, hs, List.tail_nil, List.take_nil, List.take_nil]; rfl
  | cons e es => rw [State.nextEdge_of_cons hs, List.take_succ_cons, List.tail_cons, ← acceptedWords_append]; rfl

/-- `t` is the clocked form of `u`, whose commands were executed one after another: the block is the same, and the
responses of `u` are those delivered since `d` and those pending. -/
def PortShows (d : List Word) (u t : State) : Prop :=
  SameBlock u t ∧ t.delivered ++ t.pending = d ++ u.pending

/-- One edge without reset is the words it accepts. -/
theorem PortShows.step {d : List Word} {u t t' : State} (h : PortShows d u t) (hreset : t.nextEdge.rst = false)
    (ht : Machine.step t = .next t') :
    ∃ u', execWords (acceptedWords [t.nextEdge]) u = .next u' ∧ PortShows d u' t' := by
  obtain ⟨hblock, hresponses⟩ := h
  obtain ⟨hrst, -⟩ | ⟨-, v, hv, rfl⟩ := step_cases ht
  · exact absurd (hrst.symm.trans hreset) (by decide)
  · obtain ⟨u', hu'⟩ := execWords_next (acceptedWords [t.nextEdge]) u
    obtain ⟨hsame, rs, hu'pending, hvpending⟩ := execWords_keeps_sameBlock (s' := t.dropEdge) hblock hu' hv
    obtain ⟨-, -, hdelivered⟩ := execWords_samePort hv
    obtain ⟨hkeeps, -, horder⟩ := v.responseEdge_keeps t.nextEdge
    refine ⟨u', hu', hsame.trans hkeeps, ?_⟩
    rw [horder, hdelivered, hvpending, State.dropEdge_delivered, State.dropEdge_pending, ← List.append_assoc,
      hresponses, hu'pending, List.append_assoc]

/-- A run over edges without reset is the run of the words they accept, by induction over the edges taken. -/
theorem PortShows.run {d : List Word} {u t : State} (h : PortShows d u t) (hreset : NoReset t.edges) (k : Nat) :
    ∃ t' u', core.run k t = .next t' ∧ execWords (acceptedWords (t.edges.take k)) u = .next u' ∧ PortShows d u' t' := by
  induction k generalizing u t with
  | zero => exact ⟨t, u, rfl, rfl, h⟩
  | succ k ih =>
    obtain ⟨v, hv⟩ := step_next t
    obtain ⟨w, hw, hshows⟩ := h.step hreset.nextEdge hv
    have hfirst : core.run 1 t = .next v := run_succ_of_step hv 0
    obtain ⟨t', u', ht', hu', hshows'⟩ := ih hshows (hreset.later hfirst)
    refine ⟨t', u', (run_succ_of_step hv k).trans ht', ?_, hshows'⟩
    rw [acceptedWords_take_succ, execWords_append_of_next hw, ← step_edges hv, hu']

/-- Over a run without reset no response is lost or reordered, and each accepted word adds one. -/
theorem run_responses {k : Nat} {s t : State} (hreset : NoReset s.edges) (h : core.run k s = .next t) :
    ∃ rs, t.delivered ++ t.pending = s.delivered ++ s.pending ++ rs ∧
      rs.length = (acceptedWords (s.edges.take k)).length := by
  have hshows : PortShows s.delivered s s := ⟨.refl s, rfl⟩
  obtain ⟨t', u, ht', hu, -, horder⟩ := hshows.run hreset k
  cases h.symm.trans ht'
  obtain ⟨rs, hrs, hlength⟩ := execWords_pending hu
  exact ⟨rs, by rw [horder, hrs, List.append_assoc], hlength⟩

end Sys2Proof.Machine
end

section
/-! SUPPORT. The host's record of the responses is only written: a run from a state with a longer record is the same run
with the same responses added behind it. -/

namespace Sys2Proof.Machine

/-- The state whose host has received the responses `d` before those of its record. -/
def State.behind (d : List Word) (s : State) : State := { s with delivered := d ++ s.delivered }

theorem execWord_behind (d : List Word) {w : Word} {s t : State} (h : execWord w s = .next t) :
    execWord w (s.behind d) = .next (t.behind d) := by
  obtain ⟨i, hd, -, he⟩ | ⟨⟨r, hd⟩, -, rfl⟩ := execWord_cases h
  · rw [execWord_of_ok hd]
    cases i with
    | loadbyte b =>
      obtain ⟨hw, rfl⟩ | ⟨hw, rfl⟩ := exec_loadbyte_cases he
      · exact exec_loadbyte_of_room b (s := s.behind d) hw
      · exact exec_loadbyte_of_full b (s := s.behind d) hw
    | _ => cases he; rfl
  · rw [execWord_of_error hd]
    rfl

theorem execWords_behind (d : List Word) {ws : List Word} {s t : State} (h : execWords ws s = .next t) :
    execWords ws (s.behind d) = .next (t.behind d) := by
  induction ws generalizing s with
  | nil => cases h; rfl
  | cons w ws ih =>
    obtain ⟨u, hu, hrest⟩ := execWords_cons_inv h
    rw [execWords_cons_of_next (execWord_behind d hu)]
    exact ih hrest

theorem State.deliver_behind (d : List Word) (s : State) : (s.behind d).deliver = s.deliver.behind d := by
  cases hs : s.pending with
  | nil => simp [State.deliver, State.behind, hs]
  | cons r rs => simp [State.deliver, State.behind, hs]

theorem State.responseEdge_behind (d : List Word) (e : Edge) (s : State) :
    (s.behind d).responseEdge e = (s.responseEdge e).behind d := by
  have hvalid : (s.behind d).rspValid e = s.rspValid e := rfl
  unfold State.responseEdge
  rw [hvalid, State.deliver_behind]
  split
  · split <;> rfl
  · rfl

theorem step_behind (d : List Word) {s t : State} (h : step s = .next t) : step (s.behind d) = .next (t.behind d) := by
  show clockEdge s.nextEdge (s.dropEdge.behind d) = _
  obtain ⟨hrst, rfl⟩ | ⟨hrst, u, hu, rfl⟩ := step_cases h
  · exact clockEdge_reset hrst _
  · rw [clockEdge_run hrst, commandEdge_eq_execWords, execWords_behind d hu, afterNext_next, State.responseEdge_behind]

theorem run_behind (d : List Word) {k : Nat} {s t : State} (h : core.run k s = .next t) :
    core.run k (s.behind d) = .next (t.behind d) := by
  induction k generalizing s with
  | zero => cases h; rfl
  | succ k ih =>
    obtain ⟨u, hu⟩ := step_next s
    rw [run_succ_of_step hu] at h
    rw [run_succ_of_step (step_behind d hu)]
    exact ih h

end Sys2Proof.Machine
end

section
/-! SUPPORT. Progress under a finite latency (R97): each waiting response is delivered within one more than the bound, and
an offer that the host holds is accepted at the first edge at which the block is ready. -/

namespace Sys2Proof.Machine

/-! Delivery -/

/-- A step only adds to the host's record. -/
theorem step_delivered_prefix {s t : State} (h : step s = .next t) : s.delivered <+: t.delivered := by
  obtain ⟨-, rfl⟩ | ⟨-, u, hu, rfl⟩ := step_cases h
  · exact List.prefix_rfl
  · obtain ⟨-, -, hdelivered⟩ := execWords_samePort hu
    rw [← State.dropEdge_delivered, ← hdelivered]
    obtain heq | ⟨-, heq⟩ | ⟨r, rs, -, heq⟩ := u.responseEdge_cases s.nextEdge <;> rw [heq]
    exact List.prefix_append _ _

theorem run_delivered_prefix {k : Nat} {s t : State} (h : core.run k s = .next t) : s.delivered <+: t.delivered := by
  induction k generalizing s with
  | zero => cases h; exact List.prefix_rfl
  | succ k ih =>
    obtain ⟨u, hu⟩ := step_next s
    rw [run_succ_of_step hu] at h
    exact (step_delivered_prefix hu).trans (ih h)

/-- A response is delivered at an edge at which `rsp_valid` and `rsp_ready` are 1 (R45). -/
theorem step_delivers {s t : State} (h : step s = .next t) (hvalid : s.nextRspValid = true)
    (hready : s.nextEdge.rspReady = true) : t.delivered.length = s.delivered.length + 1 := by
  obtain ⟨hrst, -⟩ | ⟨-, u, hu, rfl⟩ := step_cases h
  · exact absurd (hvalid.symm.trans (State.nextRspValid_of_rst hrst)) (by decide)
  · rw [State.nextRspValid_of_next ((commandEdge_eq_execWords _ _).trans hu)] at hvalid
    obtain ⟨-, hpending, -⟩ := (u.rspValid_iff _).1 hvalid
    obtain ⟨r, rs, hrs⟩ := List.exists_cons_of_ne_nil hpending
    obtain ⟨-, -, hdelivered⟩ := execWords_samePort hu
    rw [State.responseEdge_deliver hvalid hready, State.deliver_cons hrs, List.length_append, hdelivered]
    rfl

/-- With `rsp_valid` raised within `n` edges, the record reaches a length `m` ahead within `(n + 1) * m` edges, as far as
responses are waiting. -/
theorem run_delivers {n m len : Nat} {s : State} (hreset : NoReset s.edges) (htakes : HostTakes s)
    (hpresents : PresentsWithin n s) (hwaiting : len ≤ s.delivered.length + s.pending.length)
    (hahead : len ≤ s.delivered.length + m) (hedges : (n + 1) * m ≤ s.edges.length) :
    ∃ k ≤ (n + 1) * m, ∃ t, core.run k s = .next t ∧ len ≤ t.delivered.length := by
  induction m generalizing s with
  | zero => exact ⟨0, Nat.zero_le _, s, rfl, hahead⟩
  | succ m ih =>
    rcases Nat.lt_or_ge s.delivered.length len with hlt | hge
    swap
    · exact ⟨0, Nat.zero_le _, s, rfl, hge⟩
    rw [Nat.mul_succ] at hedges
    have hpending : s.pending ≠ [] := List.ne_nil_of_length_pos (by omega)
    obtain ⟨j, hj, u, hu, hvalid⟩ := hpresents 0 s (by omega) rfl (by omega) hpending
    have hready := htakes j u (by omega) hu hvalid
    obtain ⟨v, hv⟩ := step_next u
    have hrun : core.run (j + 1) s = .next v := (run_add_of_next hu 1).trans (run_succ_of_step hv 0)
    have hone : s.delivered.length + 1 ≤ v.delivered.length :=
      step_delivers hv hvalid hready ▸ Nat.add_le_add_right (run_delivered_prefix hu).length_le 1
    have hall : s.delivered.length + s.pending.length ≤ v.delivered.length + v.pending.length := by
      obtain ⟨rs, horder, -⟩ := run_responses hreset hrun
      have hlength := congrArg List.length horder
      simp only [List.length_append] at hlength
      omega
    have hleft : v.edges.length = s.edges.length - (j + 1) := by rw [run_edges hrun, List.length_drop]
    obtain ⟨k, hk, t, ht, hlen⟩ := ih (hreset.later hrun) (Along.later htakes hrun) (Along.later hpresents hrun)
      (by omega) (by omega) (by omega)
    exact ⟨j + 1 + k, by rw [Nat.mul_succ]; omega, t, (run_add_of_next hrun k).trans ht, hlen⟩

/-! Acceptance -/

/-- A held offer is the first command accepted, or no edge accepts and every edge still offers (R45). -/
theorem acceptedWords_of_holds {e : Edge} {es : List Edge} (h : HostHolds (e :: es)) (hvalid : e.cmdValid = true) :
    (∃ rest, acceptedWords (e :: es) = e.cmdData :: rest) ∨
    ∀ f ∈ e :: es, f.accepts = false ∧ f.cmdValid = true := by
  induction es generalizing e with
  | nil =>
    cases he : e.accepts with
    | true => exact .inl ⟨[], by simp [acceptedWords, he]⟩
    | false => exact .inr (by simp [he, hvalid])
  | cons f es ih =>
    obtain ⟨hhold, hrest⟩ := h
    cases he : e.accepts with
    | true => exact .inl ⟨acceptedWords (f :: es), by rw [acceptedWords, List.filter_cons_of_pos he]; rfl⟩
    | false =>
      obtain ⟨hf, hdata⟩ := hhold hvalid he f rfl
      obtain ⟨rest, hfirst⟩ | hnone := ih hrest hf
      · exact .inl ⟨rest, by rw [← hdata, ← hfirst, acceptedWords, List.filter_cons_of_neg (by simp [he])]; rfl⟩
      · exact .inr (List.forall_mem_cons.2 ⟨⟨he, hvalid⟩, hnone⟩)

/-- While no edge accepts and the host takes every response, there comes an edge at which the block is ready. -/
theorem exists_ready_edge {n : Nat} {s : State} (hreset : NoReset s.edges) (htakes : HostTakes s)
    (hpresents : PresentsWithin n s) (hready : ReadyWithin n s) (hnone : ∀ f ∈ s.edges, f.accepts = false)
    (hedges : (n + 1) * s.pending.length + n < s.edges.length) : ∃ f ∈ s.edges, f.cmdReady = true := by
  obtain ⟨k, hk, t, ht, hlen⟩ := run_delivers hreset htakes hpresents le_rfl le_rfl (by omega)
  have hanswered : t.pending = [] := by
    have hwords := (acceptedWords_eq_nil_iff (s.edges.take k)).2 fun f hf => hnone f (List.mem_of_mem_take hf)
    obtain ⟨rs, horder, hrs⟩ := run_responses hreset ht
    have hlength := congrArg List.length horder
    simp only [List.length_append, hrs, hwords, List.length_nil] at hlength
    exact List.eq_nil_of_length_eq_zero (by omega)
  have hleft : t.edges.length = s.edges.length - k := by rw [run_edges ht, List.length_drop]
  obtain ⟨j, hj, u, hu, hsignal⟩ := hready k t (by omega) ht (by omega) hanswered
  have hu_ready : u.nextEdge.cmdReady = true := hsignal
  have huedges : u.edges = s.edges.drop (k + j) := run_edges ((run_add_of_next ht j).trans hu)
  have hne : u.edges ≠ [] := List.ne_nil_of_length_pos (by rw [huedges, List.length_drop]; omega)
  obtain ⟨f, fs, hf⟩ := List.exists_cons_of_ne_nil hne
  refine ⟨f, List.mem_of_mem_drop (i := k + j) (by rw [← huedges, hf]; exact List.mem_cons_self), ?_⟩
  rwa [State.nextEdge_of_cons hf] at hu_ready

end Sys2Proof.Machine
end

section
/-! The statements of 70_reset_and_hazards.md section 2 and of reset in flight (R96, R97, R99). -/

namespace Sys2Proof.Machine

/-- Settles O15: the simulation `PortShows` holds of a state and itself, and every edge keeps it. -/
theorem portRunIsTheRunOfAcceptedCommands : Obligations.PortRunIsTheRunOfAcceptedCommands := by
  intro s hreset
  have hshows : PortShows s.delivered s s := ⟨.refl s, rfl⟩
  obtain ⟨t, u, ht, hu, hblock, horder⟩ := hshows.run hreset s.edges.length
  rw [List.take_length] at hu
  obtain ⟨rs, hrs, hlength⟩ := execWords_pending hu
  exact ⟨t, u, ht, hu, hblock, by rw [run_edges ht, List.drop_length], horder,
    by rw [hrs, List.length_append, hlength], fun k c hk => execWords_response hu hk⟩

/-- Settles O16: the reset edge leaves the reset block behind the host's record, and a run does not look at the record. -/
theorem resetDropsResponsesInFlight : Obligations.ResetDropsResponsesInFlight := by
  intro s e es hs hrst
  have hstep := step_of_rst hs hrst
  refine ⟨Edge.accepts_of_rst hrst, fun k => ?_, fun hreset => ?_⟩
  · have hbehind : { s with edges := es }.applyReset = { State.reset with edges := es }.behind s.delivered := by
      simp [State.behind, State.applyReset]
    obtain ⟨u, hu⟩ := run_next k { State.reset with edges := es }
    refine ⟨u, hu, ?_⟩
    rw [run_succ_of_step hstep, hbehind]
    exact run_behind s.delivered hu
  · have hshows : PortShows s.delivered State.reset { s with edges := es }.applyReset :=
      ⟨sameBlock_applyReset _, rfl⟩
    obtain ⟨t, u, ht, hu, hblock, horder⟩ := hshows.run hreset es.length
    rw [State.applyReset_edges, List.take_length] at hu
    exact ⟨t, u, (run_succ_of_step hstep _).trans ht, hu, hblock, horder⟩

/-- Settles O17: the record grows by one response within each `CMD_LATENCY + 1` edges while one waits (`run_delivers`),
and once all are answered the block becomes ready, where a held offer is accepted. -/
theorem finiteLatencyGivesProgress : Obligations.FiniteLatencyGivesProgress := by
  refine ⟨fun s hreset htakes hpresents hedges => ?_,
    fun s e es hs hreset htakes hpresents hready hholds hvalid hedges => ?_⟩
  · obtain ⟨k, hk, u, hu, hlen⟩ := run_delivers hreset htakes hpresents le_rfl le_rfl hedges
    obtain ⟨t, ht⟩ := run_next (s.edges.length - k) u
    have hrun : core.run s.edges.length s = .next t := by
      rw [← Nat.add_sub_cancel' (hk.trans hedges), run_add_of_next hu, ht]
    obtain ⟨rs, horder, -⟩ := run_responses hreset hrun
    have hprefix : s.delivered ++ s.pending <+: t.delivered := by
      refine List.prefix_of_prefix_length_le (List.prefix_append _ rs) (horder ▸ List.prefix_append _ _) ?_
      rw [List.length_append]
      exact hlen.trans (run_delivered_prefix ht).length_le
    obtain ⟨later, hlater⟩ := hprefix
    exact ⟨t, later, hrun, hlater.symm⟩
  · rw [hs] at hholds
    obtain hfirst | hnone := acceptedWords_of_holds hholds hvalid
    · rw [hs]
      exact hfirst
    · rw [← hs] at hnone
      obtain ⟨f, hf, hfready⟩ :=
        exists_ready_edge hreset htakes hpresents hready (fun f hf => (hnone f hf).1) hedges
      obtain ⟨hwaits, hoffers⟩ := hnone f hf
      have haccepts : f.accepts = true := by simp [Edge.accepts, hreset f hf, hoffers, hfready]
      exact absurd (hwaits.symm.trans haccepts) (by decide)

end Sys2Proof.Machine
end

section
/-! SUPPORT. The commands that read are silent: they append their response and change nothing else (20_memory.md sections 3
and 4). -/

namespace Sys2Proof.Machine

/-- A command that answers and changes nothing else. -/
def Silent (i : Instr) : Prop := ∀ s, exec i s = .next (s.respond (s.responseTo i))

theorem sameBlock_respond (s : State) (v : Word) : SameBlock s (s.respond v) := ⟨rfl, rfl, rfl, rfl, rfl, rfl⟩

theorem execWord_encode (i : Instr) (s : State) : execWord (encode i) s = exec i s :=
  execWord_of_ok (decode_encode i) s

/-- A run of silent commands appends their responses in the state before the run. -/
theorem execWords_silent {α : Type} {i : α → Instr} (hi : ∀ k, Silent (i k)) (ks : List α) (s : State) :
    execWords (ks.map fun k => encode (i k)) s =
      .next { s with pending := s.pending ++ ks.map fun k => s.responseTo (i k) } := by
  induction ks generalizing s with
  | nil => simp
  | cons k ks ih =>
    have hfirst := (execWord_encode (i k) s).trans (hi k s)
    have hsame (j : Instr) := (sameBlock_respond s (s.responseTo (i k))).responseTo j
    simp only [List.map_cons, execWords_cons_of_next hfirst, ih, hsame, State.respond_pending, List.append_assoc]
    rfl

theorem State.responseTo_rdbyte (s : State) (a : FbAddr) :
    s.responseTo (.rdbyte a) = responseOf (s.fb.read a.toNat).toNat :=
  zext32_eq_responseOf _

end Sys2Proof.Machine
end

section
/-! SUPPORT. What the last writes before a command leave: the byte of each cell and the configuration (R39). -/

namespace Sys2Proof.Machine

/-! One command -/

/-- The load pointer and a cell after a command are the ones `cellAfter` follows. -/
theorem exec_cellAfter {i : Instr} {s t : State} (h : exec i s = .next t) (a : Nat) (is : List Instr) :
    cellAfter a (i :: is) (s.wptr.toNat, s.fb.read a) = cellAfter a is (t.wptr.toNat, t.fb.read a) := by
  cases i with
  | loadbyte d =>
    obtain ⟨hw, rfl⟩ | ⟨hw, rfl⟩ := exec_loadbyte_cases h
    · rw [cellAfter, if_pos hw, State.respond_wptr, State.appendByte_wptr, wptr_succ_toNat hw, State.respond_fb,
        State.appendByte_fb, Memory.read_write, wptr_addr_toNat hw]
      simp only [eq_comm]
    · rw [cellAfter, if_neg (Nat.not_lt.2 hw)]
      rfl
  | wrbyte b d =>
    cases h
    rw [cellAfter, State.respond_wptr, State.fbWrite_wptr, State.respond_fb, State.fbWrite_fb, Memory.read_write]
    simp only [eq_comm]
  | _ => cases h; rfl

theorem exec_configAfter {i : Instr} {s t : State} (h : exec i s = .next t) (is : List Instr) :
    configAfter (i :: is) (s.bitOrder, s.invert) = configAfter is (t.bitOrder, t.invert) := by
  cases i with
  | loadbyte d => obtain ⟨-, rfl⟩ | ⟨-, rfl⟩ := exec_loadbyte_cases h <;> rfl
  | _ => cases h; rfl

/-! A run -/

theorem execWords_cellAfter {ws : List Word} {s t : State} (h : execWords ws s = .next t) (a : Nat) :
    cellAfter a (commandsOf ws) (s.wptr.toNat, s.fb.read a) = (t.wptr.toNat, t.fb.read a) := by
  induction ws generalizing s with
  | nil => cases h; rfl
  | cons w ws ih =>
    obtain ⟨u, hu, hrest⟩ := execWords_cons_inv h
    rw [← ih hrest]
    obtain ⟨i, hd, -, he⟩ | ⟨⟨r, hd⟩, -, rfl⟩ := execWord_cases hu
    · rw [commandsOf_cons_of_ok hd, exec_cellAfter he]
    · rw [commandsOf_cons_of_error hd]
      rfl

theorem execWords_configAfter {ws : List Word} {s t : State} (h : execWords ws s = .next t) :
    configAfter (commandsOf ws) (s.bitOrder, s.invert) = (t.bitOrder, t.invert) := by
  induction ws generalizing s with
  | nil => cases h; rfl
  | cons w ws ih =>
    obtain ⟨u, hu, hrest⟩ := execWords_cons_inv h
    rw [← ih hrest]
    obtain ⟨i, hd, -, he⟩ | ⟨⟨r, hd⟩, -, rfl⟩ := execWord_cases hu
    · rw [commandsOf_cons_of_ok hd, exec_configAfter he]
    · rw [commandsOf_cons_of_error hd]
      rfl

theorem execWords_pixelAfter {ws : List Word} {s t : State} (h : execWords ws s = .next t) (x y : Nat) :
    s.pixelAfter (commandsOf ws) x y = t.pixelAt x y := by
  simp only [State.pixelAfter, State.pixelAt, execWords_cellAfter h, execWords_configAfter h]

/-- A command after a run answers from the state that the run leaves. -/
theorem execWords_then_encode {ws : List Word} {s u : State} (h : execWords ws s = .next u) (i : Instr) :
    ∃ t, execWords (ws ++ [encode i]) s = .next t ∧ t.pending = u.pending ++ [u.responseTo i] := by
  obtain ⟨t, ht, hpending⟩ := exec_answers i u
  exact ⟨t, by rw [execWords_append_of_next h, execWords_singleton, execWord_encode, ht], hpending⟩

end Sys2Proof.Machine
end

section
/-! SUPPORT. Stores of one byte at many addresses, and the fields of the state in the words that read them back (R27,
R36). -/

namespace Sys2Proof.Machine

/-- FB after 0x00 is written to each of a list of addresses. -/
theorem Memory.read_foldl_write_zero (as : List Nat) (m : Memory) (c : Nat) :
    (as.foldl (fun m a => m.write a 0x00) m).read c = if c ∈ as then 0 else m.read c := by
  induction as generalizing m with
  | nil => simp
  | cons a as ih =>
    rw [List.foldl_cons, ih, Memory.read_write]
    by_cases hc : c = a <;> simp [hc]

theorem Memory.wf_foldl_write_zero {as : List Nat} {m : Memory} (hm : m.wf = true) (has : ∀ a ∈ as, a < 1024) :
    (as.foldl (fun m a => m.write a 0x00) m).wf = true := by
  induction as generalizing m with
  | nil => exact hm
  | cons a as ih =>
    obtain ⟨ha, hrest⟩ := List.forall_mem_cons.1 has
    exact ih (Memory.wf_write 0x00 hm ha) hrest

theorem zext32_injective {n : Nat} (hn : n ≤ 32) : Function.Injective (zext32 (n := n)) := fun u v h =>
  BitVec.eq_of_getLsbD_eq fun i _ => by rw [← getLsbD_zext32 u hn, h, getLsbD_zext32 v hn]

/-- The two lowest bits of the CFG word are its fields. -/
theorem State.cfgWord_fields (s : State) :
    s.cfgWord.getLsbD 1 = s.bitOrder.bit ∧ s.cfgWord.getLsbD 0 = s.invert := by
  simp [State.cfgWord_eq_placed, getLsbD_placed, -BitVec.getLsbD_eq_getElem]

end Sys2Proof.Machine
end

section
/-! The statements of 20_memory.md sections 3 to 5 and of 10_state.md section 7. -/

namespace Sys2Proof.Machine

/-- Settles O49: a run leaves each cell and the configuration as `cellAfter` and `configAfter` say, and the reading command
after it answers from them. -/
theorem readsSeeTheLastWritesBeforeThem : Obligations.ReadsSeeTheLastWritesBeforeThem := by
  refine ⟨fun s ws a => ?_, fun s ws x y => ?_, fun s ws x q => ?_, fun s ws g y => ?_⟩ <;>
    obtain ⟨u, hu⟩ := execWords_next ws s
  · obtain ⟨t, ht, hpending⟩ := execWords_then_encode hu (.rdbyte a)
    exact ⟨t, u.pending, ht, by rw [hpending, State.responseTo_rdbyte, execWords_cellAfter hu]⟩
  · obtain ⟨t, ht, hpending⟩ := execWords_then_encode hu (.rdpix x y)
    refine ⟨t, u.pending, ht, ?_⟩
    rw [hpending, State.responseTo, zext32_ofBool, State.displayedPixel_eq_pixelAt, execWords_pixelAfter hu]
  · obtain ⟨t, ht, hpending⟩ := execWords_then_encode hu (.rdstrip x q)
    exact ⟨t, u.pending, u.stripByte x q, ht, by rw [hpending, State.responseTo, zext32_eq_responseOf],
      fun i hi => by rw [u.stripByte_bit x q hi, execWords_pixelAfter hu]⟩
  · obtain ⟨t, ht, hpending⟩ := execWords_then_encode hu (.rdrow8 g y)
    exact ⟨t, u.pending, u.rowByte g y, ht, by rw [hpending, State.responseTo, zext32_eq_responseOf],
      fun i hi => by rw [u.rowByte_bit g y hi, execWords_pixelAfter hu]⟩

/-- Settles O27: both buffers are canonical and hold 0x00 in every cell, so they are the same data. -/
theorem loadstartIsItsByteWrites : Obligations.LoadstartIsItsByteWrites := by
  rintro s ⟨hwf, -⟩
  refine ⟨_, exec_loadstart s, ?_⟩
  have hwrites := Memory.wf_foldl_write_zero (as := List.range 1024) hwf fun a => List.mem_range.1
  refine Memory.eq_of_read_addr Memory.wf_cleared hwrites fun a => ?_
  rw [Memory.read_foldl_write_zero, if_pos (List.mem_range.2 a.isLt)]
  exact Memory.read_cleared a.toNat

/-- Settles O28: RDBYTE is silent, and below 1024 its operand is the address itself. -/
theorem ascendingReadsDumpTheBuffer : Obligations.AscendingReadsDumpTheBuffer := by
  intro s
  have haddr : ∀ k ∈ List.range 1024,
      s.responseTo (.rdbyte (BitVec.ofNat 10 k)) = responseOf (s.fb.read k).toNat := fun k hk => by
    rw [State.responseTo_rdbyte, BitVec.toNat_ofNat, Nat.mod_eq_of_lt (List.mem_range.1 hk)]
  rw [execWords_silent (fun k => exec_rdbyte (BitVec.ofNat 10 k)), List.map_congr_left haddr]

/-- Settles O48: a silent command sees the same block again; the byte or the configuration written twice is the one written
once; and a LOADBYTE with room moves WPTR. -/
theorem readsAreSilentAndWritesIdempotent : Obligations.ReadsAreSilentAndWritesIdempotent := by
  refine ⟨fun i s hi => ?_, fun i s hi => ?_, fun d s hw => ⟨_, exec_loadbyte_of_room d hw, wptr_succ_toNat hw⟩⟩
  · have hsilent : Silent i := by
      simp only [List.mem_cons, List.not_mem_nil, or_false] at hi
      obtain (rfl | rfl) | ⟨a, rfl⟩ | ⟨x, y, rfl⟩ | ⟨x, p, rfl⟩ | ⟨g, y, rfl⟩ := hi
      · exact exec_rdcfg
      · exact exec_rdstat
      · exact exec_rdbyte a
      · exact exec_rdpix x y
      · exact exec_rdstrip x p
      · exact exec_rdrow8 g y
    have hsame := sameBlock_respond s (s.responseTo i)
    refine ⟨_, _, _, hsilent s, hsilent _, hsame, sameBlock_respond _ _, rfl, ?_⟩
    rw [State.respond_pending, State.respond_pending, hsame.responseTo, List.append_assoc]
    rfl
  · obtain ⟨a, d, rfl⟩ | ⟨o, v, rfl⟩ := hi
    · refine ⟨_, _, exec_wrbyte a d s, exec_wrbyte a d _, rfl, rfl, rfl, rfl, rfl, fun c => ?_⟩
      simp only [State.respond_fb, State.fbWrite_fb, Memory.read_write]
      split <;> rfl
    · exact ⟨_, _, exec_wrcfg o v s, exec_wrcfg o v _, rfl, rfl, rfl, rfl, rfl, fun _ => rfl⟩

/-- Settles O47: equal responses of RDBYTE are equal bytes of canonical buffers, and the words of RDCFG and RDSTAT hold
every other element in a field of its own. -/
theorem everyStateBitCanBeReadBack : Obligations.EveryStateBitCanBeReadBack := by
  rintro s t ⟨hs, -⟩ ⟨ht, -⟩ hreads
  have hresponse (i : Instr) (hi : (∃ a, i = .rdbyte a) ∨ i = .rdcfg ∨ i = .rdstat) :
      t.responseTo i = s.responseTo i := by
    obtain ⟨u, v, rsp, hu, hv, hsrsp, htrsp⟩ := hreads i hi
    rw [exec_pending hu] at hsrsp
    rw [exec_pending hv] at htrsp
    exact (List.singleton_inj.1 (List.append_cancel_left htrsp)).trans
      (List.singleton_inj.1 (List.append_cancel_left hsrsp)).symm
  have hcfg : t.cfgWord = s.cfgWord := hresponse .rdcfg (.inr (.inl rfl))
  have hstat : t.statusWord = s.statusWord := hresponse .rdstat (.inr (.inr rfl))
  obtain ⟨hsorder, hsinvert⟩ := s.cfgWord_fields
  obtain ⟨htorder, htinvert⟩ := t.cfgWord_fields
  obtain ⟨-, hstrunc, hsill⟩ := s.statusWord_flags
  obtain ⟨-, httrunc, htill⟩ := t.statusWord_flags
  refine ⟨Memory.eq_of_read_addr ht hs fun a => ?_, ?_, orderBit.injective ?_, ?_, ?_, ?_⟩
  · exact zext32_injective (by decide) (hresponse (.rdbyte a) (.inl ⟨a, rfl⟩))
  · rw [← htinvert, hcfg, hsinvert]
  · exact htorder.symm.trans (hcfg ▸ hsorder)
  · rw [← t.statusWord_wptr, hstat, s.statusWord_wptr]
  · rw [← htill, hstat, hsill]
  · rw [← httrunc, hstat, hstrunc]

end Sys2Proof.Machine
end

section
/-! SUPPORT. Which elements of the state a command may write, and that no command and no edge breaks the invariant
(10_state.md). -/

namespace Sys2Proof.Machine

theorem exec_fb {i : Instr} {s t : State} (h : exec i s = .next t) :
    t.fb = s.fb ∨ i = .loadstart ∨ (∃ d, i = .loadbyte d) ∨ ∃ a d, i = .wrbyte a d := by
  cases i with
  | loadstart => exact .inr (.inl rfl)
  | loadbyte d => exact .inr (.inr (.inl ⟨d, rfl⟩))
  | wrbyte a d => exact .inr (.inr (.inr ⟨a, d, rfl⟩))
  | _ => cases h; exact .inl rfl

theorem exec_cfg {i : Instr} {s t : State} (h : exec i s = .next t) :
    (t.invert = s.invert ∧ t.bitOrder = s.bitOrder) ∨ ∃ o v, i = .wrcfg o v := by
  cases i with
  | loadbyte d => obtain ⟨-, rfl⟩ | ⟨-, rfl⟩ := exec_loadbyte_cases h <;> exact .inl ⟨rfl, rfl⟩
  | wrcfg o v => exact .inr ⟨o, v, rfl⟩
  | _ => cases h; exact .inl ⟨rfl, rfl⟩

theorem exec_wptr {i : Instr} {s t : State} (h : exec i s = .next t) :
    t.wptr = s.wptr ∨ i = .loadstart ∨ ∃ d, i = .loadbyte d := by
  cases i with
  | loadstart => exact .inr (.inl rfl)
  | loadbyte d => exact .inr (.inr ⟨d, rfl⟩)
  | _ => cases h; exact .inl rfl

theorem exec_fb_wf {i : Instr} {s t : State} (h : exec i s = .next t) (hs : s.fb.wf = true) : t.fb.wf = true := by
  cases i with
  | loadbyte d =>
    obtain ⟨-, rfl⟩ | ⟨-, rfl⟩ := exec_loadbyte_cases h
    · exact State.fbWrite_wf _ d hs
    · exact hs
  | wrbyte a d => cases h; exact State.fbWrite_wf a d hs
  | loadstart => cases h; exact Memory.wf_cleared
  | _ => cases h; exact hs

/-- A command leaves TRUNC set only where FB is full: WPTR leaves 1024 by LOADSTART alone, which clears TRUNC. -/
theorem exec_trunc_full {i : Instr} {s t : State} (h : exec i s = .next t) (hle : s.wptr.toNat ≤ 1024)
    (hs : s.trunc = true → s.wptr.toNat = 1024) : t.trunc = true → t.wptr.toNat = 1024 := by
  cases i with
  | loadbyte d =>
    obtain ⟨hw, rfl⟩ | ⟨hw, rfl⟩ := exec_loadbyte_cases h
    · exact fun htrunc => absurd (hs htrunc) hw.ne
    · exact fun _ => le_antisymm hle hw
  | loadstart | clrstat => cases h; exact fun htrunc => absurd htrunc Bool.false_ne_true
  | _ => cases h; exact hs

theorem execWord_keeps_inv {w : Word} {s t : State} (hs : Inv s) (h : execWord w s = .next t) : Inv t := by
  obtain ⟨hwf, hptr, htrunc, -⟩ := hs
  have hoffered : t.offered = true → t.pending ≠ [] := fun _ => by rw [execWord_pending h]; simp
  have hle := execWord_wptr_le h hptr
  obtain ⟨i, -, -, he⟩ | ⟨-, -, rfl⟩ := execWord_cases h
  · exact ⟨exec_fb_wf he hwf, hle, exec_trunc_full he hptr htrunc, hoffered⟩
  · exact ⟨hwf, hle, htrunc, hoffered⟩

theorem execWords_keeps_inv {ws : List Word} {s t : State} (hs : Inv s) (h : execWords ws s = .next t) : Inv t := by
  induction ws generalizing s with
  | nil => cases h; exact hs
  | cons w ws ih =>
    obtain ⟨u, hu, hrest⟩ := execWords_cons_inv h
    exact ih (execWord_keeps_inv hs hu) hrest

theorem responseEdge_keeps_inv (e : Edge) {s : State} (hs : Inv s) : Inv (s.responseEdge e) := by
  obtain ⟨hwf, hptr, htrunc, -⟩ := id hs
  obtain heq | ⟨hpending, heq⟩ | ⟨r, rs, -, heq⟩ := s.responseEdge_cases e <;> rw [heq]
  · exact hs
  · exact ⟨hwf, hptr, htrunc, fun _ => hpending⟩
  · exact ⟨hwf, hptr, htrunc, fun h => absurd h Bool.false_ne_true⟩

theorem inv_applyReset (s : State) : Inv s.applyReset :=
  ⟨rfl, Nat.zero_le _, fun h => absurd h Bool.false_ne_true, fun h => absurd h Bool.false_ne_true⟩

end Sys2Proof.Machine
end

section
/-! The statements of 10_state.md on the invariant and on who writes what, and of 40_buffer.md on states no run reaches. -/

namespace Sys2Proof.Machine

/-- Settles O20: the reset state is what a reset edge leaves. -/
theorem resetStateMeetsTheInvariant : Obligations.ResetStateMeetsTheInvariant := inv_applyReset State.reset

/-- Settles O21: a reset edge gives the invariant from any state, and else the accepted words and the response side each
keep it. -/
theorem everyStepKeepsTheInvariant : Obligations.EveryStepKeepsTheInvariant := by
  intro s hs
  obtain ⟨t, ht⟩ := step_next s
  refine ⟨t, ht, ?_⟩
  obtain ⟨-, rfl⟩ | ⟨-, u, hu, rfl⟩ := step_cases ht
  · exact inv_applyReset _
  · exact responseEdge_keeps_inv _ (execWords_keeps_inv (s := s.dropEdge) hs hu)

/-- Settles O46: a command that is none of the named ones leaves the element, and an illegal word writes ILL only. -/
theorem onlyTheNamedCommandsWriteEachElement : Obligations.OnlyTheNamedCommandsWriteEachElement := by
  intro w s
  obtain ⟨t, ht⟩ := execWord_next w s
  refine ⟨t, ht, execWord_samePort ht, ?_⟩
  obtain ⟨i, hd, -, he⟩ | ⟨-, hillegal, rfl⟩ := execWord_cases ht
  · simp only [hd, Except.ok.injEq]
    refine ⟨fun ⟨a, ha⟩ => (exec_fb he).resolve_left fun hfb => ha (by rw [hfb]),
      fun hcfg => (exec_cfg he).resolve_left fun ⟨hinv, hord⟩ => hcfg.elim (· hinv) (· hord),
      fun hptr => (exec_wptr he).resolve_left hptr, fun hill => .inr ?_⟩
    by_contra hi
    exact hill (exec_ill he hi)
  · exact ⟨fun ⟨_, ha⟩ => absurd rfl ha, fun hcfg => hcfg.elim (absurd rfl) (absurd rfl), absurd rfl,
      fun _ => .inl hillegal⟩

/-- Settles O52: above 1024 there is no room either. -/
theorem loadbyteBeyondTheRangeDropsToo : Obligations.LoadbyteBeyondTheRangeDropsToo := fun d _ hw =>
  exec_loadbyte_of_full d hw.le

end Sys2Proof.Machine
end

section
/-! SUPPORT. An edge that accepts a word, a plain command edge and an idle one (30_encoding.md section 1). -/

namespace Sys2Proof.Machine

theorem Edge.accepts_of_handshake {e : Edge} (hrst : e.rst = false) (hvalid : e.cmdValid = true)
    (hready : e.cmdReady = true) : e.accepts = true := by
  simp [Edge.accepts, hrst, hvalid, hready]

/-- At an edge that accepts a word the step is the word and then the response side (R45, R52). -/
theorem step_of_accept {s : State} {e : Edge} {es : List Edge} (h : s.edges = e :: es) (haccepts : e.accepts = true) :
    step s = afterNext (State.responseEdge e) (execWord e.cmdData { s with edges := es }) := by
  obtain ⟨hrst, -, -⟩ := e.accepts_iff.1 haccepts
  rw [step_of_cons h, clockEdge_run hrst, commandEdge_accept haccepts]

/-- Where an edge raises no response and the host takes none, an offer stays as it was. -/
theorem State.responseEdge_quiet {e : Edge} (hpresent : e.willPresent = false) (hready : e.rspReady = false)
    (s : State) : s.responseEdge e = s := by
  cases hv : s.rspValid e with
  | false => exact State.responseEdge_idle e hv
  | true =>
    obtain ⟨-, -, hoffered⟩ := (s.rspValid_iff e).1 hv
    rw [hpresent] at hoffered
    rw [State.responseEdge_hold hv hready, ← hoffered.resolve_right Bool.false_ne_true]

theorem tableWord_toNat (w : Word) : tableWord 32 w.toNat = w := by
  rw [tableWord, Nat.mod_eq_of_lt w.isLt, BitVec.ofNat_toNat, BitVec.setWidth_eq]

theorem dropEdge_of_no_edges {s : State} (h : s.edges = []) : s.dropEdge = s := by
  rw [State.dropEdge, h, List.tail_nil, ← h]

/-- A response that waits for the host waits through the command side of an edge (R45). -/
theorem commandEdge_keeps_offer {f : Edge} {s : State} {r : Word} {rs : List Word} (hpending : s.pending = r :: rs)
    (hoffered : s.offered = true) (hrst : f.rst = false) :
    ∃ t, commandEdge f s = .next t ∧ t.rspValid f = true ∧ t.rspData = some r := by
  obtain ⟨t, ht⟩ := commandEdge_next f s
  have hwords := commandEdge_eq_execWords f s ▸ ht
  obtain ⟨-, hsame, -⟩ := execWords_samePort hwords
  obtain ⟨added, hadded, -⟩ := execWords_pending hwords
  rw [hpending, List.cons_append] at hadded
  exact ⟨t, ht, (t.rspValid_iff f).2 ⟨hrst, by simp [hadded], .inl (hsame.trans hoffered)⟩,
    by rw [State.rspData, hadded, List.head?_cons]⟩

end Sys2Proof.Machine
end

section
/-! The statements of 30_encoding.md sections 1, 2 and 4: the step and the handshakes, and the encoding of a word. -/

namespace Sys2Proof.Machine

/-- Settles O1: every field of the encoded word is read back from its own place (`decode_encode`). -/
theorem decodeOfEncodeIsTheInstruction : Obligations.DecodeOfEncodeIsTheInstruction := decode_encode

/-- Settles O6: the legal words are the encodings of their commands, and the illegal ones are rejected by their opcode or a
reserved bit. -/
theorem testVectorWordsDecode : Obligations.TestVectorWordsDecode :=
  ⟨decode_encode (.loadbyte 0xFF), decode_encode (.wrbyte 1023 0xFF), decode_encode (.rdbyte 1023),
    decode_encode (.rdpix 127 63), decode_encode (.rdstrip 37 7), decode_encode (.rdrow8 15 63),
    decode_encode (.wrcfg .msbFirst true), decode_encode .clrstat, rfl, (decode_eq_reservedOpcode_iff _).2 (by decide)⟩

/-- Settles O9: an accepting edge is the word and then the response side, which a plain command edge leaves quiet. -/
theorem stepRunsTheDecodedCommand : Obligations.StepRunsTheDecodedCommand := by
  refine ⟨fun s e es i hs hrst hvalid hready hd => ?_, fun s e es r hs hrst hvalid hready hd => ?_, fun s w i hd => ?_⟩
  · rw [step_of_accept hs (Edge.accepts_of_handshake hrst hvalid hready), execWord_of_ok hd]
  · rw [step_of_accept hs (Edge.accepts_of_handshake hrst hvalid hready), execWord_of_error hd, raiseIllegalCommand_eq,
      afterNext_next]
    rfl
  · obtain ⟨t, ht⟩ := exec_next i s
    have hquiet : t.responseEdge (Edge.command w) = t := State.responseEdge_quiet rfl rfl t
    have hstep : step (s.withCommand w) = afterNext (State.responseEdge (Edge.command w)) (execWord w s) :=
      step_of_accept (State.withCommand_edges s w) rfl
    rw [State.withFetchWord, tableWord_toNat, hstep, execWord_of_ok hd, ht, afterNext_next, hquiet]

/-- Settles O10: the idle edge accepts nothing, raises nothing and takes nothing. -/
theorem idlePortLeavesTheStateAlone : Obligations.IdlePortLeavesTheStateAlone := by
  intro s hs
  have hidle : s.nextEdge = Edge.idle := by rw [State.nextEdge, hs, List.headD_nil]
  rw [step, hidle, dropEdge_of_no_edges hs, clockEdge_run rfl, commandEdge_wait rfl, afterNext_next,
    State.responseEdge_quiet rfl rfl]

/-- Settles O11: the command side of every edge and every word ends in a next state. -/
theorem everyStepAnswersANextState : Obligations.EveryStepAnswersANextState := ⟨step_next, execWord_next⟩

/-- Settles O14: the response side delivers the head of the queue where both signals are 1 and else moves the offer flag at
most; and the command side only appends behind a response that is offered. -/
theorem handshakeDeliversAndHoldsResponses : Obligations.HandshakeDeliversAndHoldsResponses := by
  refine ⟨fun e s hrst hwait => ?_, fun e s hvalid hready => ?_, fun e s hnot => ?_,
    fun e f s hvalid hready hrst => ?_⟩
  · rw [clockEdge_run hrst, commandEdge_wait hwait, afterNext_next]
  · obtain ⟨-, hpending, -⟩ := (s.rspValid_iff e).1 hvalid
    obtain ⟨r, rs, hrs⟩ := List.exists_cons_of_ne_nil hpending
    rw [State.responseEdge_deliver hvalid hready, State.deliver_cons hrs]
    exact ⟨r, by rw [State.rspData, hrs, List.head?_cons], hrs, rfl⟩
  · cases hvalid : s.rspValid e with
    | false => exact ⟨s.offered, State.responseEdge_idle e hvalid⟩
    | true =>
      rw [hvalid, Bool.true_and] at hnot
      exact ⟨true, State.responseEdge_hold hvalid hnot⟩
  · obtain ⟨-, hpending, -⟩ := (s.rspValid_iff e).1 hvalid
    obtain ⟨r, rs, hrs⟩ := List.exists_cons_of_ne_nil hpending
    have hdata : s.rspData = some r := by rw [State.rspData, hrs, List.head?_cons]
    rw [State.responseEdge_hold hvalid hready, hdata]
    obtain ⟨t, ht, htvalid, htdata⟩ := commandEdge_keeps_offer (s := { s with offered := true }) hrs rfl hrst
    exact ⟨t, ht, htvalid, htdata, Option.some_ne_none r⟩

end Sys2Proof.Machine
end

section
/-! SUPPORT. Order operands and pseudo-instructions in the assembler (30_encoding.md section 5). -/

namespace Sys2Proof.Machine

theorem assemble_cases (st : Stmt) : (∃ ws, assemble st = .ok ws) ∨ assemble st = .error .operandOutOfRange := by
  by_cases h : st.wellFormed = true
  · exact .inl ⟨_, assemble_of_wellFormed h⟩
  · exact .inr ((assemble_error_iff st).2 h)

theorem parseOrder_cases {cs : List Char} {n : Nat} (h : parseOrder cs = some n) :
    cs = ['L', 'S', 'B'] ∧ n = 0 ∨ cs = ['M', 'S', 'B'] ∧ n = 1 ∨ parseNumber cs = some n := by
  unfold parseOrder at h
  split at h
  · cases h; exact .inl ⟨rfl, rfl⟩
  · cases h; exact .inr (.inl ⟨rfl, rfl⟩)
  · exact .inr (.inr h)

/-- The words of a statement are those of its expansion. -/
theorem stmtWords_expandStmt (st : Stmt) : (expandStmt st).flatMap stmtWords = stmtWords st := by
  cases st with
  | loadbuf bs =>
    rw [expandStmt, List.flatMap_cons, List.flatMap_map]
    exact congrArg (encode .loadstart :: ·) List.map_eq_flatMap.symm
  | _ => exact List.append_nil _

/-- The address that a page and a column in range combine to is in range (R31). -/
theorem wellFormed_expandStmt {st : Stmt} (h : st.wellFormed = true) : ∀ q ∈ expandStmt st, q.wellFormed = true := by
  cases st with
  | loadbuf bs =>
    rw [expandStmt, List.forall_mem_cons]
    exact ⟨rfl, List.forall_mem_map.2 (List.all_eq_true.1 h)⟩
  | wrpc p x d =>
    refine List.forall_mem_singleton.2 ?_
    simp only [Stmt.wellFormed, Bool.and_eq_true, addrInRange_iff, pageInRange_iff, columnInRange_iff, dataInRange_iff] at h ⊢
    omega
  | rdpc p x =>
    refine List.forall_mem_singleton.2 ?_
    simp only [Stmt.wellFormed, Bool.and_eq_true, addrInRange_iff, pageInRange_iff, columnInRange_iff] at h ⊢
    omega
  | setorder o => simpa [expandStmt, Stmt.wellFormed] using h
  | clear => exact List.forall_mem_singleton.2 rfl
  | _ => exact List.forall_mem_singleton.2 h

end Sys2Proof.Machine
end

section
/-! The statements of 30_encoding.md section 5. -/

namespace Sys2Proof.Machine

/-- Settles O7: the assembler answers an error exactly where the range check fails, which each operand's bound decides. -/
theorem assemblerRejectsOperandsOutOfRange : Obligations.AssemblerRejectsOperandsOutOfRange := by
  have hrange (st : Stmt) {p : Prop} (h : st.wellFormed = true ↔ ¬ p) :
      assemble st = .error .operandOutOfRange ↔ p := by
    rw [assemble_error_iff, h, not_not]
  refine ⟨fun d => hrange _ ?_, fun a d => hrange _ ?_, fun a => hrange _ ?_, fun x y => hrange _ ?_,
    fun x p => hrange _ ?_, fun g y => hrange _ ?_, fun o v => hrange _ ?_, fun v => hrange _ ?_, fun bs => hrange _ ?_,
    fun p x d => hrange _ ?_, fun p x => hrange _ ?_, fun o => hrange _ ?_, assemble_cases,
    fun cs n => parseOrder_cases⟩ <;>
  simp [Stmt.wellFormed, and_assoc]

/-- Settles O8: a statement and its expansion have the same words, and the expansion's operands are in range. -/
theorem pseudoInstructionsAssembleToTheirExpansion : Obligations.PseudoInstructionsAssembleToTheirExpansion := by
  refine ⟨fun st hst => ⟨?_, wellFormed_expandStmt hst⟩, rfl, fun _ => rfl, fun _ _ _ => rfl, fun _ _ => rfl,
    fun _ => rfl⟩
  rw [assemble_of_wellFormed hst, stmtWords_expandStmt]

end Sys2Proof.Machine
end

section
/-! SUPPORT. WRCFG and the commands that write FB do not see each other (70_reset_and_hazards.md section 1). -/

namespace Sys2Proof.Machine

theorem execWords_encode_pair {i j : Instr} {s t u : State} (hi : exec i s = .next t) (hj : exec j t = .next u) :
    execWords [encode i, encode j] s = .next u := by
  rw [execWords_cons_of_next ((execWord_encode i s).trans hi), execWords_singleton, execWord_encode, hj]

end Sys2Proof.Machine
end

section
/-! The statements of 70_reset_and_hazards.md section 1. -/

namespace Sys2Proof.Machine

/-- Settles O18: the step is `applyReset`, read field by field. -/
theorem resetEdgeGivesTheResetState : Obligations.ResetEdgeGivesTheResetState := fun _ _ _ hs hrst =>
  ⟨_, step_of_rst hs hrst, Memory.read_nil, rfl, rfl, rfl, rfl, rfl, rfl, rfl, rfl, rfl⟩

/-- Settles O50: the two commands write different fields, and each acknowledges with the same word. -/
theorem loadingAndConfiguringCommute : Obligations.LoadingAndConfiguringCommute := by
  rintro i o v s (rfl | ⟨d, rfl⟩ | ⟨a, d, rfl⟩)
  · exact ⟨_, execWords_encode_pair (exec_loadstart s) (exec_wrcfg o v _),
      execWords_encode_pair (exec_wrcfg o v s) (exec_loadstart _)⟩
  · rcases Nat.lt_or_ge s.wptr.toNat 1024 with hw | hw
    · exact ⟨_, execWords_encode_pair (exec_loadbyte_of_room d hw) (exec_wrcfg o v _),
        execWords_encode_pair (exec_wrcfg o v s) (exec_loadbyte_of_room d hw)⟩
    · exact ⟨_, execWords_encode_pair (exec_loadbyte_of_full d hw) (exec_wrcfg o v _),
        execWords_encode_pair (exec_wrcfg o v s) (exec_loadbyte_of_full d hw)⟩
  · exact ⟨_, execWords_encode_pair (exec_wrbyte a d s) (exec_wrcfg o v _),
      execWords_encode_pair (exec_wrcfg o v s) (exec_wrbyte a d _)⟩

end Sys2Proof.Machine
end
